-- ==== Sys2Proof/Word.lean ====
section
/-! DEFINITION. The value types of the PGE: bytes, 32-bit register words, the 24-bit CRC accumulator, and the
16-byte and 20-byte strings of the cipher and the digest (00_scope.md R6, R8, R9). Nothing in the PGE is signed. -/

namespace Sys2Proof

/-- An unsigned 8-bit integer (R8). -/
abbrev Byte := BitVec 8

/-- A register value, an unsigned 32-bit integer (R8, R20). -/
abbrev Word := BitVec 32

/-- A value of the CRC-24 accumulator (R31, R185). -/
abbrev Crc24 := BitVec 24

/-- A string of `BW = 16` bytes: a session key, a cipher block, a random draw, the feedback register (R6). -/
abbrev Block := Vector Byte 16

/-- The 20-byte output of the digest (R15). -/
abbrev Digest := Vector Byte 20

/-- `2^32 - 1`, the largest length a 32-bit register holds (R66). -/
abbrev maxLen : Nat := 4294967295

end Sys2Proof
end

