-- ==== Sys2Proof/Config.lean ====
section
/-! DEFINITION. What the spec leaves open: the parameters of R7, the external collaborators of R15, and the draws of
R16, R40, R44 and R74. Every constant is opaque and has no body, so a claim holds whatever its value is. -/

namespace Sys2Proof.Config

/-- `P_BUF_SIZE - 1` (R7, D5: `1 <= P_BUF_SIZE <= 2^32 - 1`). -/
opaque bufSizeLessOne : Fin (4294967294 + 1)

/-- `P_AUX_DRAW` (R7, R156, D21): whether CFB_ENC makes the unused auxiliary draw. -/
opaque auxDraw : Bool

/-- `P_MDC_TAG`, first byte and second byte (R7, R133, D17). -/
opaque mdcTag : Byte × Byte

/-- `E key block`, the block cipher under the schedule expanded from the key (R15, R157, D19). -/
opaque E : Block → Block → Block

/-- `H s`, the 20-byte digest of a byte string (R14, R15, D18). -/
opaque H : List Byte → Digest

/-- The answer of the random source to one `Draw16()`: 16 bytes, or `none` for `fail` (R16, D22). -/
opaque draw16 : Nat → Option Block

/-- The words KEY0 to KEY3 after a reset (R44 (a)). -/
opaque resetKey : Nat → Vector Word 4

/-- The words PFX0 to PFX3 after a reset (R44 (b)). -/
opaque resetPfx : Nat → Vector Word 4

/-- `resetByte epoch addr`: the byte that BUF holds at `addr` from a reset until it is written (R44 (c)). -/
opaque resetByte : Nat → Nat → Byte

/-- The byte that a host read of a running command's destination range returns (R74). -/
opaque racyByte : Nat → Byte

/-- How many host steps come between the accept of a command and its completion (R40, R290). -/
opaque latency : Nat → Nat

end Sys2Proof.Config
end

