-- ==== Sys2Proof/Syntax.lean ====
section
/-! DEFINITION. The ten command forms of the opcode map (30_encoding.md R85), one constructor for each row of
opcode_table.json, and the reasons for which a command word is illegal (R87). -/

namespace Sys2Proof

/-- A PGE command. `tag` is the IMM8 operand (R82), written as the number the assembler reads (R91). -/
inductive Instr where
  /-- NOP (R230). -/
  | nop
  /-- FRAME: a packet header (R100). -/
  | frame (tag : Nat)
  /-- LITERAL: a framed literal-data packet (R110). -/
  | literal (tag : Nat)
  /-- LITERAL.NOHDR: the literal body alone (R110, R83). -/
  | literalNohdr
  /-- MDC_WRAP: the protected plaintext stream (R130). -/
  | mdcWrap
  /-- CFB_ENC: cipher-feedback encryption (R150). -/
  | cfbEnc
  /-- CRC_INIT (R180). -/
  | crcInit
  /-- CRC_UPDATE (R183). -/
  | crcUpdate
  /-- RADIX64: wrapped radix-64 text (R203). -/
  | radix64
  /-- ARMOR: the complete ASCII armor (R210). -/
  | armor
  deriving DecidableEq, Repr

/-- Why a command word is illegal: the five classes of R87. -/
inductive Illegal where
  /-- R87 (a): OPC 0x09 to 0xFF. -/
  | unassignedOpcode
  /-- R87 (b): a bit of RSV is set. -/
  | reservedBits
  /-- R87 (c): IMM8 or H set in a command that has neither operand. -/
  | operandBits
  /-- R87 (d): FRAME with H = 1. -/
  | frameWithH
  /-- R87 (e): LITERAL with H = 1 and IMM8 not 0. -/
  | nohdrWithTag
  deriving DecidableEq, Repr

end Sys2Proof
end

