-- ==== Sys2Proof/Machine/State.lean ====
section
/-! DEFINITION. The state of the PGE (10_state.md R45, R41), the accesses of its host (49_control.md), the reasons a step
can stop, and the state after reset (R23, R44, R280). -/

namespace Sys2Proof.Machine

/-- The byte range `[start, start + len)` of BUF, on unbounded naturals (R64, R67). -/
structure Range where
  start : Nat
  len : Nat
  deriving DecidableEq, Repr

/-- The latched command: what accept copies from the registers of that instant (R39). -/
structure Latched where
  cmd : Word
  srcAddr : Word
  srcLen : Word
  dstAddr : Word
  auxAddr : Word
  auxLen : Word
  pfxsel : Bool
  versel : Bool
  key : Block
  pfx : Block
  deriving DecidableEq, Repr

/-- A command in progress. `dst` is the destination part of its footprint, fixed at accept (R72 (b)). `wait` is the
model's own: how many host steps still come before the completion step, finite and unconstrained (R40, R290; DESIGN CHOICE,
log entry 7, safe). -/
structure Running where
  lat : Latched
  dst : Range
  wait : Nat
  deriving DecidableEq, Repr

/-- The engine state, which takes the place of a program counter (R22, R41). -/
inductive Eng where
  | idle
  | busy (run : Running)
  deriving DecidableEq, Repr

/-- The parameters of the implementation that a register or a check shows (R7); no step changes them (DESIGN CHOICE, log
entry 1, safe). -/
structure Params where
  /-- `P_BUF_SIZE`, the number of bytes of BUF (R33, R60). -/
  bufSize : Word
  /-- `P_AUX_DRAW` (R156). -/
  auxDraw : Bool
  /-- `P_MDC_TAG` (R133). -/
  mdcTag : Byte × Byte
  deriving DecidableEq, Repr

/-- The written bytes of BUF, addresses strictly rising; an address that is not listed has not been written since the
last reset and holds the byte that reset drew for it (R44 (c); DESIGN CHOICE for the form, log entries 2 and 3, safe). -/
abbrev Memory := List Host.Cell

/-- One access of the host (30_encoding.md R92; 49_control.md R231 to R235), or one `wait` of a script (R94). -/
inductive HostOp where
  /-- A write of `width` bytes at register offset `off` (R231, R24). -/
  | regWrite (off width : Nat) (v : Word)
  /-- A read of `width` bytes at register offset `off` (R232, R24). -/
  | regRead (off width : Nat)
  /-- A byte write on the buffer port (R233). -/
  | bufWrite (addr : Nat) (b : Byte)
  /-- A byte read on the buffer port (R234). -/
  | bufRead (addr : Nat)
  /-- The reset input (R235). -/
  | reset
  /-- Read STATUS until BUSY reads 0 (R94); each poll is one step. -/
  | wait
  deriving DecidableEq, Repr

/-- What a host read returns. -/
inductive Reply where
  | word (v : Word)
  | byte (b : Byte)
  deriving DecidableEq, Repr

/-- The model's state: the record of R45, the parameters of R7, and, marked as the model's own, the host's pending
accesses, the value its last read returned, and the position in the free values. -/
structure State where
  /-- CTRL: bit 0 IE, bit 1 PFXSEL, bit 2 VERSEL (R27). -/
  ctrl : BitVec 3
  srcAddr : Word
  srcLen : Word
  dstAddr : Word
  auxAddr : Word
  auxLen : Word
  /-- STATUS.BUSY (R26). -/
  busy : Bool
  /-- STATUS.DONE (R26). -/
  done : Bool
  /-- STATUS.ERR (R26). -/
  err : Bool
  /-- STATUS.CMDOVR (R26). -/
  cmdovr : Bool
  /-- STATUS.ERRCODE (R26). -/
  errcode : BitVec 4
  /-- STATUS.LASTOPC (R26). -/
  lastopc : Byte
  /-- RES_LEN (R29). -/
  resLen : Word
  /-- ERRINFO (R32). -/
  errInfo : Word
  /-- BLKCNT (R36). -/
  blkcnt : Word
  /-- CRC bits 23:0 (R31). -/
  crc : Crc24
  /-- KEY0 to KEY3 (R34), as the words written (log entry 16). -/
  key : Vector Word 4
  /-- PFX0 to PFX3 (R35), as the words written (log entry 16). -/
  pfx : Vector Word 4
  /-- BUF (R60 (b)). -/
  buf : Memory
  /-- The engine (R41). -/
  eng : Eng
  /-- The HostRace mark (R73; DEDUCED, log entry 11, unsafe for a claim without the premise `clean`). -/
  faulted : Bool
  /-- The refusal mark (R17 (d), R24 (b); log entry 11 as well). -/
  refused : Bool
  /-- The implementation's parameters (R7). -/
  params : Params
  /-- The model's own: the host accesses still to come, first one first (R93; DESIGN CHOICE, log entry 8). -/
  script : List HostOp
  /-- The model's own: what the host's last read returned; none when there was none or it was refused (log entries 8, 9). -/
  readData : Option Reply
  /-- The model's own: the answer the random source gives to the next `Draw16()` (R16; DESIGN CHOICE, log entry 6). -/
  rng : Option Block
  /-- The model's own: the index of the next free value (DESIGN CHOICE, log entry 23). -/
  oracle : Nat
  /-- The model's own: the index of the reset whose draws the unwritten bytes of BUF hold (R44 (c)). -/
  bufEpoch : Nat
  deriving DecidableEq, Repr

/-- Why a step can stop with a fault. The spec's own model fault, HostRace, is no stop: R73 and R233 record the write,
set the mark `State.faulted` and let the run go on. -/
inductive Fault where
  /-- Raised by a command's meaning (`complete`) in a state whose engine holds no latched command: R40 gives the engine a
  step only in `Busy(lat)`. `step` never raises it. Safe (DESIGN CHOICE, log entry 13). -/
  | noCommandLatched
  deriving DecidableEq, Repr

/-- Why a step can be refused. The spec's own refusal, an access that is not a whole aligned word (R24 (b)), is no stop:
it sets the mark `State.refused`. -/
inductive Refusal where
  /-- Raised by an arm of `exec` whose command has no meaning yet. No arm raises it now. Safe. -/
  | notModelled (mnemonic : String)
  deriving DecidableEq, Repr

/-- The parameters of the machine, each open (R7). -/
def Params.ofConfig : Params where
  bufSize := BitVec.ofNat 32 (Config.bufSizeLessOne.val + 1)
  auxDraw := Config.auxDraw
  mdcTag := Config.mdcTag

/-- The state after reset: the reset column of R23, `eng = Idle`, both marks clear, and KEY, PFX and BUF at drawn values
(R44, R280; log entry 2). The script is empty: no host access has been made (log entry 21). -/
def State.reset : State where
  ctrl := 0
  srcAddr := 0
  srcLen := 0
  dstAddr := 0
  auxAddr := 0
  auxLen := 0
  busy := false
  done := false
  err := false
  cmdovr := false
  errcode := 0
  lastopc := 0
  resLen := 0
  errInfo := 0
  blkcnt := 0
  crc := 0xB704CE
  key := Config.resetKey 0
  pfx := Config.resetPfx 0
  buf := []
  eng := .idle
  faulted := false
  refused := false
  params := .ofConfig
  script := []
  readData := none
  rng := Config.draw16 0
  oracle := 1
  bufEpoch := 0

end Sys2Proof.Machine
end

