-- ==== Sys2Proof/Machine/Operands.lean ====
section
/-! DEFINITION. How a command's operands are formed: byte order and bit fields (R8, R10, R61), the byte strings held in
registers (R34, R35), the latch at accept (R39), and the range and overlap checks (20_memory.md R64 to R68). -/

namespace Sys2Proof.Machine

/-- `be_N(v)`: the N-byte big-endian encoding of v (R10, R61). -/
def bigEndian (n v : Nat) : List Byte :=
  (List.range n).map fun i => BitVec.ofNat 8 (v >>> (8 * (n - 1 - i)))

/-- `ceil(a / b)`, computed as `(a + b - 1) div b` (R8). -/
def ceilDiv (a b : Nat) : Nat := (a + b - 1) / b

/-- The ASCII bytes of a text, with no terminator (R9). -/
def ascii (text : String) : List Byte := text.toList.map fun c => BitVec.ofNat 8 c.toNat

/-- LF, the line terminator (R9). -/
def lf : Byte := 0x0A

/-- CR (R9). -/
def cr : Byte := 0x0D

/-- Byte j of a register word, byte 0 in bits 31:24: `w[31 - 8*j : 24 - 8*j]` (R34). -/
def wordByte (w : Word) (j : Nat) : Byte := w.extractLsb' (24 - 8 * j) 8

/-- The 16-byte string of four register words, big-endian: byte `4*i + j` is byte j of word i (R34, R35). -/
def blockOfWords (ws : Vector Word 4) : Block :=
  Vector.ofFn fun k : Fin 16 => wordByte (ws[k.val / 4]'(by omega)) (k.val % 4)

/-- Bytewise exclusive or of two 16-byte strings (R9). -/
def xorBlock (x y : Block) : Block := Vector.ofFn fun j : Fin 16 => x[j] ^^^ y[j]

/-- `0x00 * 16` (R9, R152). -/
def zeroBlock : Block := Vector.ofFn fun _ => 0

/-- CTRL.IE (R27). -/
def State.ie (s : State) : Bool := s.ctrl.getLsbD 0

/-- CTRL.PFXSEL (R27). -/
def State.pfxsel (s : State) : Bool := s.ctrl.getLsbD 1

/-- CTRL.VERSEL (R27). -/
def State.versel (s : State) : Bool := s.ctrl.getLsbD 2

/-- The record that accept fills from the registers of that instant (R39). -/
def latch (s : State) (v : Word) : Latched where
  cmd := v
  srcAddr := s.srcAddr
  srcLen := s.srcLen
  dstAddr := s.dstAddr
  auxAddr := s.auxAddr
  auxLen := s.auxLen
  pfxsel := s.pfxsel
  versel := s.versel
  key := blockOfWords s.key
  pfx := blockOfWords s.pfx

/-- The source range `[SRC_ADDR, SRC_ADDR + SRC_LEN)` (R64). -/
def Latched.src (l : Latched) : Range := ⟨l.srcAddr.toNat, l.srcLen.toNat⟩

/-- The AUX range `[AUX_ADDR, AUX_ADDR + AUX_LEN)` (R64). -/
def Latched.aux (l : Latched) : Range := ⟨l.auxAddr.toNat, l.auxLen.toNat⟩

/-- The destination range of a result of m bytes, `[DST_ADDR, DST_ADDR + m)` (R64). -/
def Latched.dst (l : Latched) (m : Nat) : Range := ⟨l.dstAddr.toNat, m⟩

/-- Whether an address lies in a range. -/
def Range.has (r : Range) (a : Nat) : Bool := r.start ≤ a && a < r.start + r.len

/-- A range is in BUF iff `a + n <= P_BUF_SIZE`, on unbounded naturals (R65, R67). -/
def inBuf (p : Params) (r : Range) : Bool := r.start + r.len ≤ p.bufSize.toNat

/-- Two ranges overlap iff `n > 0 and k > 0 and a < b + k and b < a + n` (R68). -/
def overlap (r q : Range) : Bool :=
  0 < r.len && 0 < q.len && r.start < q.start + q.len && q.start < r.start + r.len

end Sys2Proof.Machine
end

