-- ==== Sys2Proof/Machine/Flags.lean ====
section
/-! DEFINITION. STATUS as the host sees it and clears it (10_state.md R26, 49_control.md R232, R236), the error codes
(60_exceptions.md R240), and the interrupt output (R250). -/

namespace Sys2Proof.Machine

/-- The causes of an error (R240). -/
inductive ErrCode where
  | illegal
  | range
  | overlap
  | tooLarge
  | random
  deriving DecidableEq, Repr

/-- The number of an error code in STATUS.ERRCODE; 0 is NONE and 6 to 15 are never produced (R240). -/
def ErrCode.number : ErrCode → BitVec 4
  | .illegal => 1
  | .range => 2
  | .overlap => 3
  | .tooLarge => 4
  | .random => 5

/-- An error and its info word: `raise Error(code, info)` (R11, R240). -/
structure Err where
  code : ErrCode
  info : Word
  deriving DecidableEq, Repr

/-- ILLEGAL, with the command word (R244). -/
def Err.illegal (cmd : Word) : Err := ⟨.illegal, cmd⟩

/-- RANGE, with the start address of the range that failed (R245). -/
def Err.range (start : Word) : Err := ⟨.range, start⟩

/-- OVERLAP, with DST_ADDR (R246). -/
def Err.overlap (dst : Word) : Err := ⟨.overlap, dst⟩

/-- TOO_LARGE, with 0xFFFFFFFF (R247). -/
def Err.tooLarge : Err := ⟨.tooLarge, 0xFFFFFFFF⟩

/-- RANDOM, with the number of bytes requested (R248). -/
def Err.random : Err := ⟨.random, 16⟩

/-- STATUS as a word: `BUSY | DONE<<1 | ERR<<2 | CMDOVR<<3 | ERRCODE<<8 | LASTOPC<<16`, all other bits 0 (R26, R232). -/
def State.statusWord (s : State) : Word :=
  (0 : BitVec 8) ++ s.lastopc ++ (0 : BitVec 4) ++ s.errcode ++ (0 : BitVec 4) ++
    BitVec.ofBool s.cmdovr ++ BitVec.ofBool s.err ++ BitVec.ofBool s.done ++ BitVec.ofBool s.busy

/-- A host write to STATUS, write-1-to-clear: bit 1 clears DONE, bit 2 clears ERR and ERRCODE, bit 3 clears CMDOVR, every
other bit is ignored (R236). With bit 2 it is the host's return from an error (R249): ERRINFO stays. -/
def State.writeStatus (s : State) (v : Word) : State :=
  { s with
    done := s.done && !v.getLsbD 1
    err := s.err && !v.getLsbD 2
    errcode := if v.getLsbD 2 then 0 else s.errcode
    cmdovr := s.cmdovr && !v.getLsbD 3 }

/-- The interrupt output, `IRQ = CTRL.IE and (STATUS.DONE or STATUS.ERR)` (R250). -/
def State.irq (s : State) : Bool := s.ie && (s.done || s.err)

end Sys2Proof.Machine
end

