-- ==== Sys2Proof/Machine/Ops.lean ====
section
/-! DEFINITION. The named operations every command is built from: reading and writing BUF (00_scope.md R11), the ordered
checks (60_exceptions.md R242), the draw (R16), and the completion step with its two ends, success (10_state.md R40) and
error entry (60_exceptions.md R241). -/

namespace Sys2Proof.Machine

/-- The written byte at an address, if there is one. -/
def Memory.get : Memory → Nat → Option Byte
  | [], _ => none
  | (k, c) :: m, a => if k = a then some c else Memory.get m a

/-- Writing one byte: the cell is replaced, or inserted at its place in the rising order. -/
def Memory.put : Memory → Nat → Byte → Memory
  | [], a, b => [(a, b)]
  | (k, c) :: m, a, b =>
    if a < k then (a, b) :: (k, c) :: m
    else if a = k then (a, b) :: m
    else (k, c) :: Memory.put m a b

/-- Writing a byte string from an address upward. -/
def Memory.putBytes : Memory → Nat → List Byte → Memory
  | m, _, [] => m
  | m, a, b :: bs => Memory.putBytes (Memory.put m a b) (a + 1) bs

/-- The canonical form: addresses strictly rising, so no address is listed twice. An unlisted address has no written
byte, and no entry says so. -/
abbrev Memory.wf (m : Memory) : Prop := m.Pairwise fun x y => x.1 < y.1

/-- `BUF[a]`: the written byte, or the byte that the last reset drew for the address (R44 (c)). This is the one definition
of what an unlisted address reads as. -/
def State.readByte (s : State) (a : Nat) : Byte :=
  (Memory.get s.buf a).getD (Config.resetByte s.bufEpoch a)

/-- `BUF[a] <- b`. -/
def State.writeByte (s : State) (a : Nat) (b : Byte) : State :=
  { s with buf := Memory.put s.buf a b }

/-- `MemRead(a, n)`, the bytes `BUF[a ..< a + n]` (R11). -/
def State.memRead (s : State) (r : Range) : List Byte :=
  (List.range r.len).map fun i => s.readByte (r.start + i)

/-- `MemWrite(a, n, v)`: `BUF[a + i] <- v[i]` (R11). -/
def State.memWrite (s : State) (a : Nat) (bytes : List Byte) : State :=
  { s with buf := Memory.putBytes s.buf a bytes }

/-- What a command publishes when it succeeds: `Ok(writes, resLen, crcOut, blkOut)` (R40). -/
structure Output where
  writes : List (Nat × List Byte)
  resLen : Nat
  crcOut : Option Crc24
  blkOut : Option Nat
  deriving DecidableEq, Repr

/-- The result of a command's `exec`: `Ok(…)` or `Err(code, info)` (R40). -/
inductive Result where
  | ok (o : Output)
  | err (e : Err)
  deriving DecidableEq, Repr

/-- A result, and whether the command made its draw (R242 item 8, R243). -/
structure Completed where
  drew : Bool
  result : Result
  deriving DecidableEq, Repr

/-- One write of a byte string at DST_ADDR whose length is the result length; no other result register. -/
def Output.atDst (l : Latched) (bytes : List Byte) : Output :=
  { writes := [(l.dstAddr.toNat, bytes)], resLen := bytes.length, crcOut := none, blkOut := none }

/-- The first check that fails, in order; a check is whether it passes and the error it raises otherwise (R242). -/
def firstError : List (Bool × Err) → Option Err
  | [] => none
  | (true, _) :: cs => firstError cs
  | (false, e) :: _ => some e

/-- A success that made no draw. -/
def Completed.ok (o : Output) : Completed := ⟨false, .ok o⟩

/-- A command's checks, in order, before anything else it does; a failing check makes no draw (R242, R243). -/
def guarded (checks : List (Bool × Err)) (k : Completed) : Completed :=
  match firstError checks with
  | some e => ⟨false, .err e⟩
  | none => k

/-- `Draw16()`: the answer the random source gives; `fail` raises RANDOM, with no retry and no fallback (R16, R135). -/
def withDraw (s : State) (k : Block → Output) : Completed :=
  match s.rng with
  | none => ⟨true, .err Err.random⟩
  | some r => ⟨true, .ok (k r)⟩

/-- The random source after one draw: its next answer is a fresh free value (R16). -/
def State.consumeDraw (s : State) : State :=
  { s with rng := Config.draw16 s.oracle, oracle := s.oracle + 1 }

/-- The writes of a successful command, in order (R40). -/
def Memory.putAll (m : Memory) (writes : List (Nat × List Byte)) : Memory :=
  writes.foldl (fun m w => Memory.putBytes m w.1 w.2) m

/-- Completion with success (R40). -/
def State.completeOk (s : State) (o : Output) : State :=
  { s with
    buf := Memory.putAll s.buf o.writes
    resLen := BitVec.ofNat 32 o.resLen
    crc := o.crcOut.getD s.crc
    blkcnt := (o.blkOut.map (BitVec.ofNat 32)).getD s.blkcnt
    done := true
    busy := false
    eng := .idle }

/-- Error entry (R241): the only way this hardware takes an exception. There is no vector, no saved program counter and no
mode change. The return is `State.writeStatus` or the next accept (R249). -/
def State.errorEntry (s : State) (e : Err) : State :=
  { s with
    err := true
    errcode := e.code.number
    errInfo := e.info
    resLen := 0
    busy := false
    eng := .idle }

/-- Publishing a command's result (R40). -/
def State.publish (s : State) (c : Completed) : State :=
  let s := if c.drew then s.consumeDraw else s
  match c.result with
  | .ok o => s.completeOk o
  | .err e => s.errorEntry e

/-- The completion step of a command whose result function is `f` (R40). -/
def complete (f : State → Latched → Completed) (s : State) : Host.Outcome State Fault Refusal :=
  match s.eng with
  | .idle => .fault .noCommandLatched
  | .busy run => .next (s.publish (f s run.lat))

end Sys2Proof.Machine
end

