-- ==== Sys2Proof/Machine/Crc.lean ====
section
/-! DEFINITION. The CRC-24 generator, CRC_INIT and CRC_UPDATE (43_crc.md). -/

namespace Sys2Proof.Machine

/-- The initial value of the accumulator (R180, R181). -/
def crcInitial : Crc24 := 0xB704CE

/-- One of the 8 rounds of the per-byte step: an exact shift to 25 bits, and a reduction by 0x1864CFB when bit 24 is set
(R182). -/
def crcRound (c : Crc24) : Crc24 :=
  let c25 : BitVec 25 := c.setWidth 25 <<< 1
  (if c25.getLsbD 24 then c25 ^^^ 0x1864CFB else c25).setWidth 24

/-- The per-byte step: the byte into bits 23:16, then 8 rounds (R182). -/
def crcStep (c : Crc24) (b : Byte) : Crc24 :=
  Nat.repeat crcRound 8 (c ^^^ (b.setWidth 24 <<< 16))

/-- The fold of the per-byte step over a byte string, first byte first (R181). -/
def crcFold (c : Crc24) (bytes : List Byte) : Crc24 := bytes.foldl crcStep c

/-- `crc24(s)` (R181). -/
def crc24 (bytes : List Byte) : Crc24 := crcFold crcInitial bytes

/-- The result of CRC_INIT (R180). -/
def crcInitResult (_ : State) (_ : Latched) : Completed :=
  .ok { writes := [], resLen := 0, crcOut := some crcInitial, blkOut := none }

/-- CRC_INIT (R180). -/
def execCrcInit (s : State) : Host.Outcome State Fault Refusal := complete crcInitResult s

/-- The result of CRC_UPDATE: the bytes at SRC folded into the CRC register (R183). -/
def crcUpdateResult (s : State) (l : Latched) : Completed :=
  guarded [(inBuf s.params l.src, .range l.srcAddr)]
    (.ok { writes := [], resLen := 0, crcOut := some (crcFold s.crc (s.memRead l.src)), blkOut := none })

/-- CRC_UPDATE (R183). -/
def execCrcUpdate (s : State) : Host.Outcome State Fault Refusal := complete crcUpdateResult s

end Sys2Proof.Machine
end

