-- ==== Sys2Proof/Machine/Armor.lean ====
section
/-! DEFINITION. Radix-64, line wrapping and ASCII armor: RADIX64 and ARMOR (44_armor.md). -/

namespace Sys2Proof.Machine

/-- The radix-64 alphabet `A(i)` (R201). -/
def radixChar (i : BitVec 6) : Byte :=
  let n := i.toNat
  if n < 26 then BitVec.ofNat 8 (0x41 + n)
  else if n < 52 then BitVec.ofNat 8 (0x61 + (n - 26))
  else if n < 62 then BitVec.ofNat 8 (0x30 + (n - 52))
  else if n = 62 then 0x2B
  else 0x2F

/-- The pad character '=' (R201). -/
def padChar : Byte := 0x3D

/-- The four 6-bit fields of a 24-bit group, most significant first (R200). -/
def radixGroup (v : BitVec 24) : List Byte :=
  [radixChar (v.extractLsb' 18 6), radixChar (v.extractLsb' 12 6),
   radixChar (v.extractLsb' 6 6), radixChar (v.extractLsb' 0 6)]

/-- The radix-64 encoding of a byte string, three bytes at a time, '=' in place of the characters that no byte reaches
(R200). -/
def b64 : List Byte → List Byte
  | [] => []
  | [g0] => (radixGroup (g0 ++ (0 : Byte) ++ (0 : Byte))).take 2 ++ [padChar, padChar]
  | [g0, g1] => (radixGroup (g0 ++ g1 ++ (0 : Byte))).take 3 ++ [padChar]
  | g0 :: g1 :: g2 :: rest => radixGroup (g0 ++ g1 ++ g2) ++ b64 rest

/-- Line k of a text cut at 64 characters, with its LF (R202). -/
def wrapLine (t : List Byte) (k : Nat) : List Byte := (t.drop (64 * k)).take 64 ++ [lf]

/-- The text in lines of 64 characters, the last one shorter, each followed by LF (R202). -/
def wrap64 (t : List Byte) : List Byte :=
  (List.range (ceilDiv t.length 64)).flatMap (wrapLine t)

/-- The result of RADIX64 (R203). -/
def radix64Result (s : State) (l : Latched) : Completed :=
  let out := wrap64 (b64 (s.memRead l.src))
  guarded
    [(inBuf s.params l.src, .range l.srcAddr),
     (out.length ≤ maxLen, .tooLarge),
     (inBuf s.params (l.dst out.length), .range l.dstAddr),
     (!overlap l.src (l.dst out.length), .overlap l.dstAddr)]
    (.ok (.atDst l out))

/-- RADIX64 (R203). -/
def execRadix64 (s : State) : Host.Outcome State Fault Refusal := complete radix64Result s

/-- The begin-marker line, without its LF (R213). -/
def beginMarker : List Byte := ascii "-----BEGIN PGP MESSAGE-----"

/-- The end-marker line, without its LF (R213). -/
def endMarker : List Byte := ascii "-----END PGP MESSAGE-----"

/-- The default version line, without its LF (R211). -/
def defaultVersion : List Byte := ascii "Version: VerySimple PHP-GPG v1.6.1"

/-- The version line: the default, none, or the AUX bytes verbatim as the whole line (R211). `aux` is what AUX holds. -/
def versionLine (versel : Bool) (aux : List Byte) : List Byte :=
  if versel then (if aux = [] then [] else aux ++ [lf])
  else defaultVersion ++ [lf]

/-- The checksum line: '=', the radix-64 of the 3-byte CRC, LF (R212). -/
def checksumLine (crc : Crc24) : List Byte := padChar :: b64 (bigEndian 3 crc.toNat) ++ [lf]

/-- The whole armor text; the blank line is always there (R210). -/
def armorText (ver data : List Byte) : List Byte :=
  beginMarker ++ [lf] ++ ver ++ [lf] ++ wrap64 (b64 data) ++ checksumLine (crc24 data) ++ endMarker ++ [lf]

/-- The result of ARMOR (R210); AUX is read and checked only with VERSEL = 1. -/
def armorResult (s : State) (l : Latched) : Completed :=
  let data := s.memRead l.src
  let text := armorText (versionLine l.versel (s.memRead l.aux)) data
  guarded
    [(inBuf s.params l.src, .range l.srcAddr),
     (!l.versel || inBuf s.params l.aux, .range l.auxAddr),
     (text.length ≤ maxLen, .tooLarge),
     (inBuf s.params (l.dst text.length), .range l.dstAddr),
     (!overlap l.src (l.dst text.length), .overlap l.dstAddr),
     (!l.versel || !overlap l.aux (l.dst text.length), .overlap l.dstAddr)]
    (.ok { Output.atDst l text with crcOut := some (crc24 data) })

/-- ARMOR (R210). -/
def execArmor (s : State) : Host.Outcome State Fault Refusal := complete armorResult s

end Sys2Proof.Machine
end

