-- ==== Sys2Proof/Machine/Cfb.lean ====
section
/-! DEFINITION. CFB_ENC (42_cfb.md): the function of R150 to R154, the decryptor of R159, and the state machine of R161
that the function abstracts. -/

namespace Sys2Proof.Machine

/-- The number of 16-byte chunks of n bytes (R151). -/
def cfbBlocks (n : Nat) : Nat := ceilDiv n 16

/-- Chunk i of the zero-padded plaintext (R151). -/
def cfbChunk (p : List Byte) (i : Nat) : Block := Vector.ofFn fun j : Fin 16 => p.getD (16 * i + j) 0

/-- The block steps, in order: `C_i = E_i xor chunk i`, `FR <- C_i` (R153). `enc` is E under the key. -/
def cfbChain (enc : Block → Block) : Block → List Block → List Block
  | _, [] => []
  | fr, p :: ps => xorBlock (enc fr) p :: cfbChain enc (xorBlock (enc fr) p) ps

/-- The ciphertext: chained from a zero feedback register and cut to the plaintext's length (R151 to R154). -/
def cfbEncrypt (enc : Block → Block) (p : List Byte) : List Byte :=
  let chunks := (List.range (cfbBlocks p.length)).map (cfbChunk p)
  ((cfbChain enc zeroBlock chunks).flatMap Vector.toList).take p.length

/-- The chaining of the decryptor: the feedback register is the ciphertext chunk (R159). -/
def cfbUnchain (enc : Block → Block) : Block → List Block → List Block
  | _, [] => []
  | fr, c :: cs => xorBlock (enc fr) c :: cfbUnchain enc c cs

/-- The CFB decryptor of R159, over the truncated ciphertext. -/
def cfbDecrypt (enc : Block → Block) (c : List Byte) : List Byte :=
  let chunks := (List.range (cfbBlocks c.length)).map (cfbChunk c)
  ((cfbUnchain enc zeroBlock chunks).flatMap Vector.toList).take c.length

/-- The checks of CFB_ENC, in the order of R150; the result length is SRC_LEN. -/
def cfbChecks (s : State) (l : Latched) : List (Bool × Err) :=
  let n := l.srcLen.toNat
  [(inBuf s.params l.src, .range l.srcAddr),
   (inBuf s.params (l.dst n), .range l.dstAddr),
   (!overlap l.src (l.dst n), .overlap l.dstAddr)]

/-- What a successful CFB_ENC publishes (R150). -/
def cfbOutput (s : State) (l : Latched) : Output where
  writes := [(l.dstAddr.toNat, cfbEncrypt (Config.E l.key) (s.memRead l.src))]
  resLen := l.srcLen.toNat
  crcOut := none
  blkOut := some (cfbBlocks l.srcLen.toNat)

/-- The result of CFB_ENC (R150); with `P_AUX_DRAW` it makes one draw, which it discards (R156). -/
def cfbResult (s : State) (l : Latched) : Completed :=
  guarded (cfbChecks s l)
    (if s.params.auxDraw then withDraw s (fun _ => cfbOutput s l) else .ok (cfbOutput s l))

/-- CFB_ENC (R150). -/
def execCfbEnc (s : State) : Host.Outcome State Fault Refusal := complete cfbResult s

/-- The internal states of the CFB engine (R161); `idle` is the end of the command. -/
inductive CfbPhase where
  | check
  | aux
  | setup
  | block
  | finish
  | idle
  deriving DecidableEq, Repr

/-- The engine inside one CFB_ENC: its phase, the feedback register, the block index, and the PGE state it works on. -/
structure CfbRun where
  phase : CfbPhase
  fr : Block
  i : Nat
  pge : State
  deriving DecidableEq, Repr

/-- One transition of the CFB engine (R161). -/
def cfbTransition (l : Latched) (c : CfbRun) : CfbRun :=
  let n := l.srcLen.toNat
  let nb := cfbBlocks n
  match c.phase with
  | .check =>
    match firstError (cfbChecks c.pge l) with
    | some e => { c with phase := .idle, pge := c.pge.errorEntry e }
    | none => { c with phase := .aux }
  | .aux =>
    if c.pge.params.auxDraw then
      match c.pge.rng with
      | none => { c with phase := .idle, pge := c.pge.consumeDraw.errorEntry .random }
      | some _ => { c with phase := .setup, pge := c.pge.consumeDraw }
    else { c with phase := .setup }
  | .setup => { c with phase := if 0 < nb then .block else .finish, fr := zeroBlock, i := 0 }
  | .block =>
    let chunk : Block := Vector.ofFn fun j : Fin 16 =>
      if 16 * c.i + j < n then c.pge.readByte (l.srcAddr.toNat + (16 * c.i + j)) else 0
    let ci := xorBlock (Config.E l.key c.fr) chunk
    { phase := if c.i + 1 < nb then .block else .finish
      fr := ci
      i := c.i + 1
      pge := c.pge.memWrite (l.dstAddr.toNat + 16 * c.i) (ci.toList.take (min 16 (n - 16 * c.i))) }
  | .finish =>
    { c with
      phase := .idle
      pge := c.pge.completeOk { writes := [], resLen := n, crcOut := none, blkOut := some nb } }
  | .idle => c

/-- k transitions of the CFB engine. -/
def cfbTransitions (l : Latched) : Nat → CfbRun → CfbRun
  | 0, c => c
  | k + 1, c => cfbTransitions l k (cfbTransition l c)

/-- The CFB engine at the start of a command on a PGE state. -/
def CfbRun.start (s : State) : CfbRun := { phase := .check, fr := zeroBlock, i := 0, pge := s }

end Sys2Proof.Machine
end

