-- ==== Sys2Proof/Machine/Control.lean ====
section
/-! DEFINITION. The command with no data transform, NOP (49_control.md R230), and the completion of an illegal command
word (30_encoding.md R86, R87; 60_exceptions.md R244). -/

namespace Sys2Proof.Machine

/-- The result of NOP (R230). -/
def nopResult (_ : State) (_ : Latched) : Completed :=
  .ok { writes := [], resLen := 0, crcOut := none, blkOut := none }

/-- NOP (R230). -/
def execNop (s : State) : Host.Outcome State Fault Refusal := complete nopResult s

/-- The result of a word that decodes as Illegal: error ILLEGAL with the word (R86, R244). -/
def illegalResult (_ : State) (l : Latched) : Completed := ⟨false, .err (.illegal l.cmd)⟩

/-- The completion of an illegal word (R87). -/
def execIllegal (s : State) : Host.Outcome State Fault Refusal := complete illegalResult s

end Sys2Proof.Machine
end

