-- ==== Sys2Proof/Machine/Framer.lean ====
section
/-! DEFINITION. FRAME, LITERAL and LITERAL.NOHDR (40_framer.md). -/

namespace Sys2Proof.Machine

/-- The packet header, 2, 3 or 5 bytes (R101); the tag sums are modulo 256 (R102). -/
def frameBytes (tag len : Nat) : List Byte :=
  if len < 256 then BitVec.ofNat 8 tag :: bigEndian 1 len
  else if len < 65536 then BitVec.ofNat 8 (tag + 1) :: bigEndian 2 len
  else BitVec.ofNat 8 (tag + 2) :: bigEndian 4 len

/-- The result of FRAME (R100): SRC_LEN is the body length as a value, and BUF is not read. -/
def frameResult (tag : Nat) (s : State) (l : Latched) : Completed :=
  let hdr := frameBytes tag l.srcLen.toNat
  guarded [(inBuf s.params (l.dst hdr.length), .range l.dstAddr)] (.ok (.atDst l hdr))

/-- FRAME (R100). -/
def execFrame (tag : Nat) (s : State) : Host.Outcome State Fault Refusal :=
  complete (frameResult tag) s

/-- Whether the text has a CR LF pair anywhere (R112). -/
def hasCrLf : List Byte → Bool
  | x :: y :: rest => (x == cr && y == lf) || hasCrLf (y :: rest)
  | _ => false

/-- Line-ending normalization: a text with no CR LF pair has every LF rewritten to CR LF (R112). -/
def normalizeText (text : List Byte) : List Byte :=
  if hasCrLf text then text
  else text.flatMap fun b => if b = lf then [cr, lf] else [b]

/-- The literal body: marker 't', a zero-length filename, a zero 4-byte time, the content (R111). -/
def literalBody (text : List Byte) : List Byte :=
  0x74 :: 0x00 :: 0x00 :: 0x00 :: 0x00 :: 0x00 :: normalizeText text

/-- The result of LITERAL (`hdr`) and LITERAL.NOHDR, with the checks in the order of R110. -/
def literalResult (tag : Nat) (hdr : Bool) (s : State) (l : Latched) : Completed :=
  let body := literalBody (s.memRead l.src)
  let out := if hdr then frameBytes tag body.length ++ body else body
  guarded
    [(inBuf s.params l.src, .range l.srcAddr),
     (!hdr || body.length ≤ maxLen, .tooLarge),
     (out.length ≤ maxLen, .tooLarge),
     (inBuf s.params (l.dst out.length), .range l.dstAddr),
     (!overlap l.src (l.dst out.length), .overlap l.dstAddr)]
    (.ok (.atDst l out))

/-- LITERAL (R110). -/
def execLiteral (tag : Nat) (s : State) : Host.Outcome State Fault Refusal :=
  complete (literalResult tag true) s

/-- LITERAL.NOHDR (R110, R83). -/
def execLiteralNohdr (s : State) : Host.Outcome State Fault Refusal :=
  complete (literalResult 0 false) s

end Sys2Proof.Machine
end

