-- ==== Sys2Proof/Machine/Mdc.lean ====
section
/-! DEFINITION. MDC_WRAP (41_mdc.md). -/

namespace Sys2Proof.Machine

/-- The 18-byte prefix: R and a repeat of its last two bytes (R131). -/
def mdcPrefix (r : Block) : List Byte := r.toList ++ [r[14], r[15]]

/-- What the digest reads: prefix, literal packet, sentinel (R132). -/
def mdcHashed (tag : Byte × Byte) (r : Block) (lit : List Byte) : List Byte :=
  mdcPrefix r ++ lit ++ [tag.1, tag.2]

/-- The protected plaintext stream: the digest's input and then the digest (R133). -/
def mdcStream (hash : List Byte → Digest) (tag : Byte × Byte) (r : Block) (lit : List Byte) : List Byte :=
  mdcHashed tag r lit ++ (hash (mdcHashed tag r lit)).toList

/-- The result of MDC_WRAP (R130); PFXSEL = 1 takes R from PFX, PFXSEL = 0 from one draw, which is the last check
(R134, R243). -/
def mdcResult (s : State) (l : Latched) : Completed :=
  let m := l.srcLen.toNat + 40
  let out := fun r =>
    { Output.atDst l (mdcStream Config.H s.params.mdcTag r (s.memRead l.src)) with resLen := m }
  guarded
    [(inBuf s.params l.src, .range l.srcAddr),
     (m ≤ maxLen, .tooLarge),
     (inBuf s.params (l.dst m), .range l.dstAddr),
     (!overlap l.src (l.dst m), .overlap l.dstAddr)]
    (if l.pfxsel then .ok (out l.pfx) else withDraw s out)

/-- MDC_WRAP (R130). -/
def execMdcWrap (s : State) : Host.Outcome State Fault Refusal := complete mdcResult s

end Sys2Proof.Machine
end

