-- ==== Sys2Proof/Machine/Dispatch.lean ====
section
/-! DEFINITION. The completion step of each command (10_state.md R40), one arm for each row of opcode_table.json. -/

namespace Sys2Proof.Machine

def exec (i : Instr) (s : State) : Host.Outcome State Fault Refusal :=
  match i with
  | .nop => Sys2Proof.Machine.execNop s
  | .frame tag => Sys2Proof.Machine.execFrame tag s
  | .literal tag => Sys2Proof.Machine.execLiteral tag s
  | .literalNohdr => Sys2Proof.Machine.execLiteralNohdr s
  | .mdcWrap => Sys2Proof.Machine.execMdcWrap s
  | .cfbEnc => Sys2Proof.Machine.execCfbEnc s
  | .crcInit => Sys2Proof.Machine.execCrcInit s
  | .crcUpdate => Sys2Proof.Machine.execCrcUpdate s
  | .radix64 => Sys2Proof.Machine.execRadix64 s
  | .armor => Sys2Proof.Machine.execArmor s

end Sys2Proof.Machine
end

