-- ==== Sys2Proof/WellFormed.lean ====
section
/-! DEFINITION. The commands that have a word: a tag operand is a byte (30_encoding.md R82, R91). -/

namespace Sys2Proof

/-- "The assembler refuses a tag outside 0 to 255" (R91). The other commands have no operand of their own. -/
def Instr.wellFormed : Instr → Bool
  | .nop => true
  | .frame tag => tag < 256
  | .literal tag => tag < 256
  | .literalNohdr => true
  | .mdcWrap => true
  | .cfbEnc => true
  | .crcInit => true
  | .crcUpdate => true
  | .radix64 => true
  | .armor => true

end Sys2Proof
end

