-- ==== Sys2Proof/Decode.lean ====
section
/-! DEFINITION. The command word: its fields (30_encoding.md R81), the total decoder (R86), which names the class of R87
of every word it refuses, and the encoder (R85, R91). -/

namespace Sys2Proof

/-- OPC, bits 7:0 (R81). -/
def opcField (v : Word) : Byte := v.extractLsb' 0 8

/-- IMM8, bits 15:8 (R81). -/
def immField (v : Word) : Byte := v.extractLsb' 8 8

/-- H, bit 16 (R81). -/
def hField (v : Word) : Bool := v.getLsbD 16

/-- RSV, bits 31:17 (R81). -/
def rsvField (v : Word) : BitVec 15 := v.extractLsb' 17 15

/-- A command that takes neither IMM8 nor H: legal only when both are 0 (R86, R87 (c)). -/
def decodePlain (imm : Byte) (h : Bool) (i : Instr) : Except Illegal Instr :=
  if imm = 0 ∧ h = false then .ok i else .error .operandBits

/-- The command for the fields of a word whose RSV is 0 (R86). -/
def decodeFields (opc : Nat) (imm : Byte) (h : Bool) : Except Illegal Instr :=
  match opc with
  | 0x00 => decodePlain imm h .nop
  | 0x01 => if h = false then .ok (.frame imm.toNat) else .error .frameWithH
  | 0x02 =>
    if h = false then .ok (.literal imm.toNat)
    else if imm = 0 then .ok .literalNohdr
    else .error .nohdrWithTag
  | 0x03 => decodePlain imm h .mdcWrap
  | 0x04 => decodePlain imm h .cfbEnc
  | 0x05 => decodePlain imm h .crcInit
  | 0x06 => decodePlain imm h .crcUpdate
  | 0x07 => decodePlain imm h .radix64
  | 0x08 => decodePlain imm h .armor
  | _ => .error .unassignedOpcode

/-- The command a word stands for, or the class of R87 that makes it illegal (R86). -/
def decode (v : Word) : Except Illegal Instr :=
  if rsvField v ≠ 0 then .error .reservedBits
  else decodeFields (opcField v).toNat (immField v) (hField v)

/-- A command word from its fields, RSV = 0 (R81). -/
def commandWord (opc imm h : Nat) : Word := BitVec.ofNat 32 (opc ||| imm <<< 8 ||| h <<< 16)

/-- The word of a command (R85, R91). -/
def encode : Instr → Word
  | .nop => commandWord 0x00 0 0
  | .frame tag => commandWord 0x01 tag 0
  | .literal tag => commandWord 0x02 tag 0
  | .literalNohdr => commandWord 0x02 0 1
  | .mdcWrap => commandWord 0x03 0 0
  | .cfbEnc => commandWord 0x04 0 0
  | .crcInit => commandWord 0x05 0 0
  | .crcUpdate => commandWord 0x06 0 0
  | .radix64 => commandWord 0x07 0 0
  | .armor => commandWord 0x08 0 0

/-- The command word made of the low `nbits` bits of `w`, as opcode_table.json numbers them; a command is one 32-bit
value on the register port, so no byte order enters (R80). -/
def tableWord (nbits w : Nat) : Word := BitVec.ofNat 32 (w % 2 ^ nbits)

/-- The command the decoder reads from a word of opcode_table.json; none where the word is illegal. -/
def decodeTableWord (nbits w : Nat) : Option Instr :=
  (decode (tableWord nbits w)).toOption

end Sys2Proof
end

