-- ==== Sys2Proof/Machine/Footprint.lean ====
section
/-! DEFINITION. The footprint of a command: the bytes of BUF that the host must not write, and those whose value it must
not rely on, while the command runs (20_memory.md R64, R72 to R74). -/

namespace Sys2Proof.Machine

/-- The result function of each command: what its meaning publishes (R40). -/
def resultOf : Instr → State → Latched → Completed
  | .nop => nopResult
  | .frame tag => frameResult tag
  | .literal tag => literalResult tag true
  | .literalNohdr => literalResult 0 false
  | .mdcWrap => mdcResult
  | .cfbEnc => cfbResult
  | .crcInit => crcInitResult
  | .crcUpdate => crcUpdateResult
  | .radix64 => radix64Result
  | .armor => armorResult

/-- The source ranges of a command (R64). FRAME, NOP and CRC_INIT have none. -/
def sourceRanges : Instr → Latched → List Range
  | .nop, _ => []
  | .frame _, _ => []
  | .literal _, l => [l.src]
  | .literalNohdr, l => [l.src]
  | .mdcWrap, l => [l.src]
  | .cfbEnc, l => [l.src]
  | .crcInit, _ => []
  | .crcUpdate, l => [l.src]
  | .radix64, l => [l.src]
  | .armor, l => if l.versel then [l.src, l.aux] else [l.src]

/-- The destination range that a command's result names, empty when it will end with an ILLEGAL, RANGE, TOO_LARGE or
OVERLAP error. "No draw changes m", so the length is taken with a draw that succeeds (R72 (b); DEDUCED, log entry 12, safe). -/
def destRange (s : State) (l : Latched) : Range :=
  match decode l.cmd with
  | .error _ => l.dst 0
  | .ok i =>
    match (resultOf i { s with rng := some zeroBlock } l).result with
    | .ok o => l.dst o.resLen
    | .err _ => l.dst 0

/-- Whether an address lies in a source range, in BUF, of a command (R72 (a)). -/
def inSources (p : Params) (l : Latched) (a : Nat) : Bool :=
  match decode l.cmd with
  | .error _ => false
  | .ok i => (sourceRanges i l).any fun r => inBuf p r && r.has a

/-- Whether an address lies in the footprint of a running command (R72). -/
def inFootprint (p : Params) (run : Running) (a : Nat) : Bool :=
  inSources p run.lat a || run.dst.has a

end Sys2Proof.Machine
end

