-- ==== Sys2Proof/Machine/HostPort.lean ====
section
/-! DEFINITION. The host's accesses: accept (10_state.md R37 to R39), the register port (49_control.md R231, R232, R236),
the buffer port (R233, R234), reset (R235, R280), and whose turn the next step is (00_scope.md R12, R40, R290). -/

namespace Sys2Proof.Machine

/-- The registers of the map (R23). -/
inductive Reg where
  | cmd | status | ctrl | srcAddr | srcLen | dstAddr | resLen | auxAddr | auxLen | crc | errInfo | bufSize
  | key (i : Fin 4)
  | pfx (i : Fin 4)
  | blkCnt
  | reserved
  deriving DecidableEq, Repr

/-- The register at an offset of the register space, 0x00 to 0xFC in steps of 4 (R23, R24 (c)). -/
def Reg.at : Nat → Reg
  | 0x00 => .cmd
  | 0x04 => .status
  | 0x08 => .ctrl
  | 0x0C => .srcAddr
  | 0x10 => .srcLen
  | 0x14 => .dstAddr
  | 0x18 => .resLen
  | 0x1C => .auxAddr
  | 0x20 => .auxLen
  | 0x24 => .crc
  | 0x28 => .errInfo
  | 0x2C => .bufSize
  | 0x30 => .key 0
  | 0x34 => .key 1
  | 0x38 => .key 2
  | 0x3C => .key 3
  | 0x40 => .pfx 0
  | 0x44 => .pfx 1
  | 0x48 => .pfx 2
  | 0x4C => .pfx 3
  | 0x50 => .blkCnt
  | _ => .reserved

/-- An access the register port defines: a whole 32-bit word at a multiple of 4 below 0x100 (R24 (a); for an aligned offset
from 0x100 on DEDUCED, log entry 10, safe under `clean`). -/
def regAccessDefined (off width : Nat) : Bool := width == 4 && off % 4 == 0 && off < 0x100

/-- The engine starts on the word v, with the operands of this instant (R37, R39); `wait` host steps come before its
completion. -/
def State.start (s : State) (v : Word) (wait : Nat) : State :=
  let lat := latch s v
  { s with
    busy := true
    done := false
    err := false
    errcode := 0
    lastopc := opcField v
    errInfo := 0
    eng := .busy { lat := lat, dst := destRange s lat, wait := wait } }

/-- Accept (R37): every word is accepted, illegal ones included; the wait is a free value (R40, R290). -/
def State.accept (s : State) (v : Word) : State :=
  { s.start v (Config.latency s.oracle) with oracle := s.oracle + 1 }

/-- A write of v to CMD: accept when idle (R37), else dropped with CMDOVR set (R38). -/
def State.writeCmd (s : State) (v : Word) : State :=
  if s.busy then { s with cmdovr := true } else s.accept v

/-- `RegWrite(off, v)` at a defined offset (R231). -/
def State.writeReg (s : State) (r : Reg) (v : Word) : State :=
  match r with
  | .cmd => s.writeCmd v
  | .status => s.writeStatus v
  | .ctrl => { s with ctrl := v.setWidth 3 }
  | .srcAddr => { s with srcAddr := v }
  | .srcLen => { s with srcLen := v }
  | .dstAddr => { s with dstAddr := v }
  | .auxAddr => { s with auxAddr := v }
  | .auxLen => { s with auxLen := v }
  | .key i => { s with key := s.key.set i v }
  | .pfx i => { s with pfx := s.pfx.set i v }
  | .resLen => s
  | .crc => s
  | .errInfo => s
  | .bufSize => s
  | .blkCnt => s
  | .reserved => s

/-- `RegRead(off)` at a defined offset (R232): CMD, KEY0 to KEY3 and reserved offsets read 0. -/
def State.readReg (s : State) (r : Reg) : Word :=
  match r with
  | .cmd => 0
  | .status => s.statusWord
  | .ctrl => s.ctrl.setWidth 32
  | .srcAddr => s.srcAddr
  | .srcLen => s.srcLen
  | .dstAddr => s.dstAddr
  | .resLen => s.resLen
  | .auxAddr => s.auxAddr
  | .auxLen => s.auxLen
  | .crc => s.crc.setWidth 32
  | .errInfo => s.errInfo
  | .bufSize => s.params.bufSize
  | .key _ => 0
  | .pfx i => s.pfx[i]
  | .blkCnt => s.blkcnt
  | .reserved => 0

/-- A host register write; one the port does not define is refused and changes nothing else (R231, R24 (b); DESIGN CHOICE,
log entry 9, safe under `clean`). -/
def State.regWrite (s : State) (off width : Nat) (v : Word) : State :=
  if regAccessDefined off width then s.writeReg (.at off) v else { s with refused := true }

/-- A host register read; one the port does not define is refused and returns nothing (R232, R24 (b); DESIGN CHOICE, log
entry 9, safe under `clean`). -/
def State.regRead (s : State) (off width : Nat) : State :=
  if regAccessDefined off width then { s with readData := some (.word (s.readReg (.at off))) }
  else { s with refused := true, readData := none }

/-- `BufWrite(addr, b)` (R233): ignored outside BUF (R70), HostRace inside a running command's footprint (R73). -/
def State.bufWrite (s : State) (addr : Nat) (b : Byte) : State :=
  if s.params.bufSize.toNat ≤ addr then s
  else match s.eng with
  | .idle => s.writeByte addr b
  | .busy run =>
    if inFootprint s.params run addr then { s.writeByte addr b with faulted := true }
    else s.writeByte addr b

/-- `BufRead(addr)` (R234): 0 outside BUF (R70), any byte in a running command's destination range (R74; a free value, log
entry 4). -/
def State.bufRead (s : State) (addr : Nat) : State :=
  if s.params.bufSize.toNat ≤ addr then { s with readData := some (.byte 0) }
  else match s.eng with
  | .idle => { s with readData := some (.byte (s.readByte addr)) }
  | .busy run =>
    if run.dst.has addr then
      { s with readData := some (.byte (Config.racyByte s.oracle)), oracle := s.oracle + 1 }
    else { s with readData := some (.byte (s.readByte addr)) }

/-- A host-asserted reset (R235, R280): every register at its reset value, the command in progress abandoned, KEY, PFX and
BUF at freshly drawn values, both marks clear. The implementation's parameters, the random source and the host are
outside the reset (DEDUCED, log entry 15, safe). -/
def State.hostReset (s : State) : State :=
  { State.reset with
    key := Config.resetKey s.oracle
    pfx := Config.resetPfx s.oracle
    bufEpoch := s.oracle
    oracle := s.oracle + 1
    params := s.params
    script := s.script
    readData := s.readData
    rng := s.rng }

/-- One host step has passed for the command in progress (R40). -/
def State.tick (s : State) : State :=
  match s.eng with
  | .idle => s
  | .busy run => { s with eng := .busy { run with wait := run.wait - 1 } }

/-- One host access. A `wait` that reads BUSY = 1 stays at the head of the script (R94; DEDUCED, log entry 24, safe). -/
def State.access (s : State) : HostOp → State
  | .regWrite off width v => s.regWrite off width v
  | .regRead off width => s.regRead off width
  | .bufWrite addr b => s.bufWrite addr b
  | .bufRead addr => s.bufRead addr
  | .reset => s.hostReset
  | .wait =>
    let polled := s.regRead 0x04 4
    if s.statusWord.getLsbD 0 then { polled with script := .wait :: s.script } else polled

/-- A host step: the access at the head of the script, with `rest` after it. -/
def hostStep (op : HostOp) (rest : List HostOp) (s : State) : State :=
  State.access (State.tick { s with script := rest }) op

/-- Whose turn the next step is. -/
inductive Turn where
  | engine (run : Running)
  | host (op : HostOp) (rest : List HostOp)
  | quiet
  deriving DecidableEq, Repr

/-- The interleaving: the engine's completion step comes once its wait is over, and at the latest when the host has no
access left, so it is never postponed for ever (R12, R40, R290). An idle PGE whose host makes no access does nothing
(R261). DESIGN CHOICE for the form, log entries 7 and 14, safe. -/
def State.turn (s : State) : Turn :=
  match s.eng, s.script with
  | .busy run, [] => .engine run
  | .busy run, op :: rest => if run.wait = 0 then .engine run else .host op rest
  | .idle, op :: rest => .host op rest
  | .idle, [] => .quiet

end Sys2Proof.Machine
end

