-- ==== Sys2Proof/Machine/Step.lean ====
section
/-! DEFINITION. One step of the PGE: the engine's completion step, which decodes the latched word (30_encoding.md R86,
10_state.md R40), or one host access (49_control.md). -/

namespace Sys2Proof.Machine

/-- One step, by whichever agent's turn it is (R12). -/
def step (s : State) : Host.Outcome State Fault Refusal :=
  match s.turn with
  | .engine run =>
    match decode run.lat.cmd with
    | .ok i => exec i s
    | .error _ => execIllegal s
  | .host op rest => .next (hostStep op rest s)
  | .quiet => .next s

/-- The state in which the engine has accepted the command word in the low `nbits` bits of `w`, with the operands that the
registers of `s` hold, and completes it in the very next step. It stands for the host's CMD write (R37; DESIGN CHOICE, log
entry 21, safe). -/
def State.withFetchWord (s : State) (nbits w : Nat) : State :=
  s.start (tableWord nbits w) 0

end Sys2Proof.Machine
end

