-- ==== Sys2Proof/Machine/Script.lean ====
section
/-! DEFINITION. Host scripts (30_encoding.md R91 to R94): the lines, the word each command line stands for, the accesses each
pseudo-instruction expands to, and the assembler that reads a line of text (how it cuts a line into words is DEDUCED, log entry 18). -/

namespace Sys2Proof.Machine

/-- A line of a host script: a command (R91), a primitive (R92), or a pseudo-instruction (R94). -/
inductive Line where
  | command (i : Instr)
  | wr (r : Reg) (v : Word)
  | rd (r : Reg)
  | bw (addr : Nat) (bytes : List Byte)
  | br (addr n : Nat)
  | reset
  | wait
  | run (i : Instr)
  | src (a n : Word)
  | dst (a : Word)
  | aux (a n : Word)
  | key (k : Block)
  | pfx (r : Block)
  | clr
  deriving DecidableEq, Repr

/-- The offset of a register (R23); the first reserved one stands for them all. -/
def Reg.offset : Reg → Nat
  | .cmd => 0x00
  | .status => 0x04
  | .ctrl => 0x08
  | .srcAddr => 0x0C
  | .srcLen => 0x10
  | .dstAddr => 0x14
  | .resLen => 0x18
  | .auxAddr => 0x1C
  | .auxLen => 0x20
  | .crc => 0x24
  | .errInfo => 0x28
  | .bufSize => 0x2C
  | .key i => 0x30 + 4 * i
  | .pfx i => 0x40 + 4 * i
  | .blkCnt => 0x50
  | .reserved => 0x54

/-- The word a command line assembles to; the assembler refuses a tag outside 0 to 255 (R91). -/
def assemble (i : Instr) : Option Word := if i.wellFormed then some (encode i) else none

/-- `wr <REG>, <value>` (R92). -/
def wrOp (r : Reg) (v : Word) : HostOp := .regWrite r.offset 4 v

/-- Four bytes as a word, the first in bits 31:24 (R94). -/
def wordOfBytes (b : Block) (i : Fin 4) : Word :=
  b[4 * i.val]'(by omega) ++ b[4 * i.val + 1]'(by omega) ++ b[4 * i.val + 2]'(by omega) ++ b[4 * i.val + 3]'(by omega)

/-- The host accesses of a line, in order (R92, R94); none where the assembler refuses it. -/
def Line.expand : Line → Option (List HostOp)
  | .command i => (assemble i).map fun w => [wrOp .cmd w]
  | .wr r v => some [wrOp r v]
  | .rd r => some [.regRead r.offset 4]
  | .bw addr bytes => some (bytes.mapIdx fun i b => .bufWrite (addr + i) b)
  | .br addr n => some ((List.range n).map fun i => .bufRead (addr + i))
  | .reset => some [.reset]
  | .wait => some [.wait]
  | .run i => (assemble i).map fun w => [wrOp .cmd w, .wait]
  | .src a n => some [wrOp .srcAddr a, wrOp .srcLen n]
  | .dst a => some [wrOp .dstAddr a]
  | .aux a n => some [wrOp .auxAddr a, wrOp .auxLen n]
  | .key k => some ((List.finRange 4).map fun i => wrOp (.key i) (wordOfBytes k i))
  | .pfx r => some ((List.finRange 4).map fun i => wrOp (.pfx i) (wordOfBytes r i))
  | .clr => some [wrOp .status 0x0000000E]

/-- The accesses of a script, its lines run in order (R93). -/
def expandScript : List Line → Option (List HostOp)
  | [] => some []
  | l :: ls => match l.expand, expandScript ls with
    | some ops, some rest => some (ops ++ rest)
    | _, _ => none

/-- The host is given a script to run (R93). -/
def State.load (s : State) (ops : List HostOp) : State := { s with script := ops }

/-- A token of a line: a word, its letters in lower case, or the bytes of a quoted text (R91, R92). -/
inductive Token where
  | word (cs : List Char)
  | text (bytes : List Byte)
  deriving DecidableEq, Repr

/-- Where the tokenizer stands: in plain text, or in a quoted text, perhaps after a backslash. -/
inductive LexMode where
  | plain (cur : List Char)
  | quoted (acc : List Byte) (escaped : Bool)
  deriving DecidableEq, Repr

/-- The word read so far, in front of the tokens that follow it. -/
def flushWord (cur : List Char) (rest : List Token) : List Token :=
  if cur = [] then rest else .word cur.reverse :: rest

/-- An ASCII character. A script is ASCII text: R9 and R92 give quoted text its ASCII bytes, and the spec says nothing of any
other character (DESIGN CHOICE, log entry 18: a line with one is refused, unsafe only for claims about script text). -/
def isAscii (c : Char) : Bool := c.toNat < 0x80

/-- The tokens of a line. Blanks and commas separate words; in a quoted text `\n` stands for LF and `\r` for CR (R92). A line
with a character that is not ASCII is refused, in a word and in a quoted text (DESIGN CHOICE, log entry 18). -/
def lexFrom : LexMode → List Char → Option (List Token)
  | .plain cur, [] => some (flushWord cur [])
  | .plain cur, c :: cs =>
    if c.toNat = 0x22 then (lexFrom (.quoted [] false) cs).map (flushWord cur)
    else if c = ' ' ∨ c = ',' then (lexFrom (.plain []) cs).map (flushWord cur)
    else if isAscii c then lexFrom (.plain (c.toLower :: cur)) cs
    else none
  | .quoted _ _, [] => none
  | .quoted acc true, c :: cs =>
    if c = 'n' then lexFrom (.quoted (lf :: acc) false) cs
    else if c = 'r' then lexFrom (.quoted (cr :: acc) false) cs
    else none
  | .quoted acc false, c :: cs =>
    if c.toNat = 0x22 then (lexFrom (.plain []) cs).map (.text acc.reverse :: ·)
    else if c.toNat = 0x5C then lexFrom (.quoted acc true) cs
    else if isAscii c then lexFrom (.quoted (BitVec.ofNat 8 c.toNat :: acc) false) cs
    else none

/-- The value of a digit of a base up to 16. -/
def digitOf (base : Nat) (c : Char) : Option Nat :=
  let n := c.toNat
  let d := if 0x30 ≤ n ∧ n ≤ 0x39 then n - 0x30 else if 0x61 ≤ n ∧ n ≤ 0x66 then n - 0x61 + 10 else base
  if d < base then some d else none

/-- The value of a digit string. -/
def digitsOf (base : Nat) : Nat → List Char → Option Nat
  | acc, [] => some acc
  | acc, c :: cs => match digitOf base c with
    | some d => digitsOf base (base * acc + d) cs
    | none => none

/-- A number, decimal or `0x` hex (R91). -/
def numberOf : Token → Option Nat
  | .word ('0' :: 'x' :: c :: cs) => digitsOf 16 0 (c :: cs)
  | .word (c :: cs) => digitsOf 10 0 (c :: cs)
  | _ => none

/-- A register value: a number below 2^32 (R92). -/
def wordOf (t : Token) : Option Word :=
  match numberOf t with
  | some n => if n < 4294967296 then some (BitVec.ofNat 32 n) else none
  | none => none

/-- A byte of a byte string, two hex digits without `0x` (R8). -/
def byteOf : Token → Option Byte
  | .word [c, d] => (digitsOf 16 0 [c, d]).map (BitVec.ofNat 8)
  | _ => none

/-- A byte string: quoted text, or bytes one after another, at least one, since the form begins with `<b0>` (R92). That a line
with no byte is refused, and that an empty quoted text is a byte string of no bytes, are the model's (DESIGN CHOICE, log
entry 18). -/
def bytesOf : List Token → Option (List Byte)
  | [] => none
  | [.text bytes] => some bytes
  | ts => ts.mapM byteOf

/-- Sixteen bytes (R94). -/
def blockOf (ts : List Token) : Option Block :=
  match ts.mapM byteOf with
  | some bytes => if h : bytes.length = 16 then some ⟨bytes.toArray, by simpa using h⟩ else none
  | none => none

/-- The name of a register in a script, in lower case, since case does not matter (R23, R91, R92). A reserved offset has no
name. -/
def Reg.scriptName : Reg → List Byte
  | .cmd => ascii "cmd"
  | .status => ascii "status"
  | .ctrl => ascii "ctrl"
  | .srcAddr => ascii "src_addr"
  | .srcLen => ascii "src_len"
  | .dstAddr => ascii "dst_addr"
  | .resLen => ascii "res_len"
  | .auxAddr => ascii "aux_addr"
  | .auxLen => ascii "aux_len"
  | .crc => ascii "crc"
  | .errInfo => ascii "errinfo"
  | .bufSize => ascii "bufsize"
  | .key i => ascii "key" ++ [BitVec.ofNat 8 (0x30 + i)]
  | .pfx i => ascii "pfx" ++ [BitVec.ofNat 8 (0x30 + i)]
  | .blkCnt => ascii "blkcnt"
  | .reserved => []

/-- The registers of the map, in the order of their offsets (R23). -/
def Reg.named : List Reg :=
  [.cmd, .status, .ctrl, .srcAddr, .srcLen, .dstAddr, .resLen, .auxAddr, .auxLen, .crc, .errInfo, .bufSize,
    .key 0, .key 1, .key 2, .key 3, .pfx 0, .pfx 1, .pfx 2, .pfx 3, .blkCnt]

/-- The ASCII bytes of a word of a line; `lexFrom` lets no other character into a word (log entry 18). -/
def nameBytes (cs : List Char) : List Byte := cs.map fun c => BitVec.ofNat 8 c.toNat

/-- The register with a script name (R92). -/
def regOf (cs : List Char) : Option Reg :=
  Reg.named.find? fun r => r.scriptName == nameBytes cs

/-- A command line (R91); a tag outside 0 to 255 is refused. -/
def commandOf (name : List Char) (args : List Token) : Option Instr :=
  let n := nameBytes name
  match args with
  | [] =>
    if n = ascii "nop" then some .nop
    else if n = ascii "literal.nohdr" then some .literalNohdr
    else if n = ascii "mdc.wrap" then some .mdcWrap
    else if n = ascii "cfb.enc" then some .cfbEnc
    else if n = ascii "crc.init" then some .crcInit
    else if n = ascii "crc.update" then some .crcUpdate
    else if n = ascii "radix64" then some .radix64
    else if n = ascii "armor" then some .armor
    else none
  | [t] =>
    match numberOf t with
    | some tag =>
      let i := if n = ascii "frame" then some (Instr.frame tag)
        else if n = ascii "literal" then some (Instr.literal tag) else none
      i.filter Instr.wellFormed
    | none => none
  | _ => none

/-- A primitive or a pseudo-instruction by its name (R92, R94). -/
def primitiveOf (name : List Char) (args : List Token) : Option Line :=
  let n := nameBytes name
  if n = ascii "wr" then match args with
    | [.word r, v] => match regOf r, wordOf v with
      | some r, some v => some (.wr r v)
      | _, _ => none
    | _ => none
  else if n = ascii "rd" then match args with
    | [.word r] => (regOf r).map .rd
    | _ => none
  else if n = ascii "bw" then match args with
    | a :: bs => match numberOf a, bytesOf bs with
      | some a, some bs => some (.bw a bs)
      | _, _ => none
    | _ => none
  else if n = ascii "br" then match args with
    | [a, k] => match numberOf a, numberOf k with
      | some a, some k => some (.br a k)
      | _, _ => none
    | _ => none
  else if n = ascii "src" then match args with
    | [a, k] => match wordOf a, wordOf k with
      | some a, some k => some (.src a k)
      | _, _ => none
    | _ => none
  else if n = ascii "aux" then match args with
    | [a, k] => match wordOf a, wordOf k with
      | some a, some k => some (.aux a k)
      | _, _ => none
    | _ => none
  else if n = ascii "dst" then match args with
    | [a] => (wordOf a).map .dst
    | _ => none
  else if n = ascii "key" then (blockOf args).map .key
  else if n = ascii "pfx" then (blockOf args).map .pfx
  else if n = ascii "reset" ∧ args = [] then some .reset
  else if n = ascii "wait" ∧ args = [] then some .wait
  else if n = ascii "clr" ∧ args = [] then some .clr
  else none

/-- A line of a script, from its text; case does not matter (R91). -/
def parseLine (text : List Char) : Option Line :=
  match lexFrom (.plain []) text with
  | some (.word name :: args) =>
    match commandOf name args with
    | some i => some (.command i)
    | none =>
      if nameBytes name = ascii "run" then
        match args with
        | .word cmd :: args => (commandOf cmd args).map .run
        | _ => none
      else primitiveOf name args
  | _ => none

end Sys2Proof.Machine
end

