-- ==== Sys2Proof/Safety.lean ====
section
/-! DEFINITION. What counts as a safe run, in the terms a claim uses: no mark set (00_scope.md R17), the end of a run
(49_control.md R237), and the invariant of every reachable state (10_state.md R26, R45). -/

namespace Sys2Proof.Machine

/-- Neither of the model's marks is set: "a claim takes 'no fault and no refusal' as a premise" (R17). -/
def State.clean (s : State) : Bool := !s.faulted && !s.refused

/-- The end of a run: the script's last line has run and the engine is idle (R93, R237). -/
def State.ended (s : State) : Bool := s.script.isEmpty && s.eng == .idle

/-- A final state: a run has ended, and it is neither faulted nor refused (R17 (c), R237). -/
def State.final (s : State) : Bool := s.ended && s.clean

/-- STATUS is consistent: BUSY excludes DONE, ERR and an error code, DONE excludes ERR (R26), and ERRCODE is 0 exactly when
ERR is 0 and never 6 to 15 (R26, R240). -/
def State.statusInv (s : State) : Prop :=
  (s.busy = true → s.done = false ∧ s.err = false) ∧ ¬(s.done = true ∧ s.err = true) ∧
    (s.err = false ↔ s.errcode = 0) ∧ s.errcode.toNat ≤ 5

/-- The engine agrees with STATUS.BUSY, and a command in progress has ERRINFO 0, its opcode in LASTOPC and its
destination inside BUF (R37, R41, R72). -/
def State.engineInv (s : State) : Prop :=
  match s.eng with
  | .idle => s.busy = false
  | .busy run =>
    s.busy = true ∧ s.errInfo = 0 ∧ s.lastopc = opcField run.lat.cmd ∧
      (run.dst.len = 0 ∨ inBuf s.params run.dst = true)

/-- BUF keeps its canonical form and holds no byte outside `P_BUF_SIZE`, which is at least 1 (R7, R60). -/
def State.bufInv (s : State) : Prop :=
  Memory.wf s.buf ∧ (∀ c ∈ s.buf, c.1 < s.params.bufSize.toNat) ∧ 1 ≤ s.params.bufSize.toNat

/-- The invariant of every state that a run from reset reaches. -/
def State.Inv (s : State) : Prop := s.statusInv ∧ s.engineInv ∧ s.bufInv

end Sys2Proof.Machine
end

