-- ==== Sys2Proof/Certificates/Slice0/Obligations.lean ====
section
/-! DEFINITION. The statements for the provers, each with the rules of the spec it formalises. The names under `Spec` say
what the rules say in arithmetic of their own, so that a statement does not repeat the model's definitions. -/

open Sys2Proof Sys2Proof.Machine

/-- The state after a success that wrote m bytes: RES_LEN = m, DONE = 1, BUSY = 0, engine idle (R40). -/
def Sys2Proof.Spec.succeeded (s : State) (m : Nat) : State :=
  { s with resLen := BitVec.ofNat 32 m, done := true, busy := false, eng := .idle }

/-- The state after an error: ERR, ERRCODE, ERRINFO, RES_LEN = 0, BUSY = 0, engine idle, nothing else (R241). -/
def Sys2Proof.Spec.failed (s : State) (code : BitVec 4) (info : Word) : State :=
  { s with err := true, errcode := code, errInfo := info, resLen := 0, busy := false, eng := .idle }

/-- A range is in BUF (R65). -/
abbrev Sys2Proof.Spec.fits (s : State) (r : Range) : Prop := r.start + r.len ≤ s.params.bufSize.toNat

/-- Two ranges do not overlap (the negation of R68). -/
abbrev Sys2Proof.Spec.apart (r q : Range) : Prop :=
  r.len = 0 ∨ q.len = 0 ∨ q.start + q.len ≤ r.start ∨ r.start + r.len ≤ q.start

/-- `ceil(a / b)` (R8). -/
abbrev Sys2Proof.Spec.ceil (a b : Nat) : Nat := (a + b - 1) / b

/-- A text has a CR LF pair (R112). -/
abbrev Sys2Proof.Spec.hasPair (t : List Byte) : Prop :=
  ∃ i, i < t.length ∧ t[i]? = some 0x0D ∧ t[i + 1]? = some 0x0A

/-- The commands that read the range at SRC (R64). -/
def Sys2Proof.Spec.readsSrc : Instr → Bool
  | .nop => false
  | .frame _ => false
  | .crcInit => false
  | .literal _ => true
  | .literalNohdr => true
  | .mdcWrap => true
  | .cfbEnc => true
  | .crcUpdate => true
  | .radix64 => true
  | .armor => true

/-- ARMOR with VERSEL = 1, the one command that reads the AUX range (R64). -/
def Sys2Proof.Spec.readsAux (i : Instr) (l : Latched) : Bool := i == .armor && l.versel

/-- The length of the version line (R215). -/
def Sys2Proof.Spec.versionLength (l : Latched) : Nat :=
  if l.versel then (if l.auxLen.toNat = 0 then 0 else l.auxLen.toNat + 1) else 35

/-- The length of the wrapped radix-64 text of n bytes (R204). -/
def Sys2Proof.Spec.radixLength (n : Nat) : Nat :=
  4 * Spec.ceil n 3 + Spec.ceil (4 * Spec.ceil n 3) 64

/-- The length of the literal body of the text at SRC (R114). -/
def Sys2Proof.Spec.bodyLength (s : State) (l : Latched) : Nat := 6 + (normalizeText (s.memRead l.src)).length

/-- The length of a packet header for a body of n bytes (R101). -/
def Sys2Proof.Spec.headerLength (n : Nat) : Nat := if n < 256 then 2 else if n < 65536 then 3 else 5

/-- The result length m of each command (R29, R100, R114, R133, R154, R204, R215). -/
def Sys2Proof.Spec.resultLength (s : State) (l : Latched) : Instr → Nat
  | .nop => 0
  | .frame _ => Spec.headerLength l.srcLen.toNat
  | .literal _ => Spec.headerLength (Spec.bodyLength s l) + Spec.bodyLength s l
  | .literalNohdr => Spec.bodyLength s l
  | .mdcWrap => l.srcLen.toNat + 40
  | .cfbEnc => l.srcLen.toNat
  | .crcInit => 0
  | .crcUpdate => 0
  | .radix64 => Spec.radixLength l.srcLen.toNat
  | .armor => 61 + Spec.versionLength l + Spec.radixLength l.srcLen.toNat

/-- The commands that write no byte of BUF, whose DST_ADDR is not checked (R64). -/
def Sys2Proof.Spec.writesNothing : Instr → Bool
  | .nop => true
  | .crcInit => true
  | .crcUpdate => true
  | .frame _ => false
  | .literal _ => false
  | .literalNohdr => false
  | .mdcWrap => false
  | .cfbEnc => false
  | .radix64 => false
  | .armor => false

/-- Check 2 of R242: the source range is in BUF. -/
abbrev Sys2Proof.Spec.srcOk (i : Instr) (s : State) (l : Latched) : Prop := Spec.readsSrc i = true → Spec.fits s l.src

/-- Check 3 of R242: the AUX range is in BUF. -/
abbrev Sys2Proof.Spec.auxOk (i : Instr) (s : State) (l : Latched) : Prop := Spec.readsAux i l = true → Spec.fits s l.aux

/-- Check 4 of R242: no length exceeds 2^32 - 1. -/
abbrev Sys2Proof.Spec.lengthOk (i : Instr) (s : State) (l : Latched) : Prop := Spec.resultLength s l i ≤ 4294967295

/-- Check 5 of R242: the destination range is in BUF. -/
abbrev Sys2Proof.Spec.dstOk (i : Instr) (s : State) (l : Latched) : Prop :=
  Spec.writesNothing i = false → Spec.fits s ⟨l.dstAddr.toNat, Spec.resultLength s l i⟩

/-- Check 6 of R242: the destination does not overlap the source. -/
abbrev Sys2Proof.Spec.srcApart (i : Instr) (s : State) (l : Latched) : Prop :=
  Spec.readsSrc i = true → Spec.apart l.src ⟨l.dstAddr.toNat, Spec.resultLength s l i⟩

/-- Check 7 of R242: the destination does not overlap the AUX range. -/
abbrev Sys2Proof.Spec.auxApart (i : Instr) (s : State) (l : Latched) : Prop :=
  Spec.readsAux i l = true → Spec.apart l.aux ⟨l.dstAddr.toNat, Spec.resultLength s l i⟩

/-- Checks 2 to 7 of R242 all pass. -/
abbrev Sys2Proof.Spec.checksPass (i : Instr) (s : State) (l : Latched) : Prop :=
  Spec.srcOk i s l ∧ Spec.auxOk i s l ∧ Spec.lengthOk i s l ∧ Spec.dstOk i s l ∧ Spec.srcApart i s l ∧
    Spec.auxApart i s l

/-- The commands that make a draw once every other check has passed (R242 item 8). -/
def Sys2Proof.Spec.draws (i : Instr) (s : State) (l : Latched) : Bool :=
  (i == .mdcWrap && !l.pfxsel) || (i == .cfbEnc && s.params.auxDraw)

/-- It is the host's turn, with the access `op` first and `rest` after it (R12, R40). That the host is a script, and when its
turn comes while a command runs, are the model's form (log entries 7 and 8). -/
abbrev Sys2Proof.Spec.hostTurn (s : State) (op : HostOp) (rest : List HostOp) : Prop :=
  s.script = op :: rest ∧ ∀ run, s.eng = .busy run → run.wait ≠ 0

/-- One host step has passed, before what the access itself does: the rest of the script remains, and a command in
progress is one host step nearer its completion (R40). -/
def Sys2Proof.Spec.passed (s : State) (rest : List HostOp) : State :=
  { s with
    script := rest
    eng := match s.eng with
      | .idle => .idle
      | .busy run => .busy { run with wait := run.wait - 1 } }

/-- One bit as a number. -/
abbrev Sys2Proof.Spec.bit (b : Bool) : Nat := if b then 1 else 0

/-- The state with every operand register replaced (R287). -/
def Sys2Proof.Spec.withOperands (s : State) (c : BitVec 3) (a : Vector Word 5) (k p : Vector Word 4) : State :=
  { s with
    ctrl := c, srcAddr := a[0], srcLen := a[1], dstAddr := a[2], auxAddr := a[3], auxLen := a[4], key := k, pfx := p }

/-- One round of R182 on numbers. -/
def Sys2Proof.Spec.crcRound (c : Nat) : Nat := if (2 * c).testBit 24 then (2 * c) ^^^ 0x1864CFB else 2 * c

/-- k rounds of R182 on numbers. -/
def Sys2Proof.Spec.crcRounds : Nat → Nat → Nat
  | 0, c => c
  | k + 1, c => Spec.crcRounds k (Spec.crcRound c)

/-- The 64 characters of R201, in order. -/
def Sys2Proof.Spec.alphabet : List Byte :=
  ascii "ABCDEFGHIJKLMNOPQRSTUVWXYZabcdefghijklmnopqrstuvwxyz0123456789+/"

/-! ## Encoding -/

/-- A few words of 95_test_vectors.md section 2.8, written out bit by bit, decode as it says. -/
def Obligations.SpecWordsDecode : Prop :=
  decode 0b00000000000000000000000000000000 = .ok .nop ∧
  decode 0b00000000000000001010110000000001 = .ok (.frame 0xAC) ∧
  decode 0b00000000000000001010110000000010 = .ok (.literal 0xAC) ∧
  decode 0b00000000000000010000000000000010 = .ok .literalNohdr ∧
  decode 0b00000000000000000000000000000011 = .ok .mdcWrap ∧
  decode 0b00000000000000000000000000000100 = .ok .cfbEnc ∧
  decode 0b00000000000000000000000000000101 = .ok .crcInit ∧
  decode 0b00000000000000000000000000000110 = .ok .crcUpdate ∧
  decode 0b00000000000000000000000000000111 = .ok .radix64 ∧
  decode 0b00000000000000000000000000001000 = .ok .armor ∧
  decode 0b00000000000000010000000000000001 = .error .frameWithH ∧
  decode 0b10000000000000000000000000000100 = .error .reservedBits

/-- Decoding the word of a well-formed command gives the command back, with every tag (R85, R86). -/
def Obligations.DecodeEncodeRoundTrip : Prop :=
  ∀ i : Instr, i.wellFormed = true → decode (encode i) = .ok i

/-- A legal word is the word of the well-formed command it decodes to: no bit is dropped, and no two words are one command
(R84, R86). -/
def Obligations.EncodeDecodeRoundTrip : Prop :=
  ∀ (v : Word) (i : Instr), decode v = .ok i → encode i = v ∧ i.wellFormed = true

/-- R87: the illegal words are exactly those of the five classes, and each ends with error ILLEGAL, changing nothing else. -/
def Obligations.IllegalWordsEndWithError : Prop :=
  (∀ v : Word, (∃ e, decode v = .error e) ↔
    (0x09 ≤ v.toNat % 256 ∨ v.toNat / 131072 ≠ 0 ∨
      (v.toNat % 256 ∈ [0, 3, 4, 5, 6, 7, 8] ∧ (v.toNat / 256 % 256 ≠ 0 ∨ v.toNat / 65536 % 2 ≠ 0)) ∨
      (v.toNat % 256 = 1 ∧ v.toNat / 65536 % 2 = 1) ∨
      (v.toNat % 256 = 2 ∧ v.toNat / 65536 % 2 = 1 ∧ v.toNat / 256 % 256 ≠ 0))) ∧
  ∀ (s : State) (run : Running) (e : Illegal), s.eng = .busy run → (run.wait = 0 ∨ s.script = []) →
    decode run.lat.cmd = .error e → step s = .next (Spec.failed s 1 run.lat.cmd)

/-- Each row of opcode_table.json: a word decodes to the row's command exactly when it agrees with the row's match under
the row's mask; FRAME and LITERAL take their tag from bits 15:8 (R85). -/
def Obligations.TableRowsMatchDecode : Prop :=
  ∀ v : Word,
    (v &&& 0xFFFFFFFF = 0x00000000 ↔ decode v = .ok .nop) ∧
    (v &&& 0xFFFF00FF = 0x00000001 ↔ decode v = .ok (.frame (v.toNat / 256 % 256))) ∧
    (v &&& 0xFFFF00FF = 0x00000002 ↔ decode v = .ok (.literal (v.toNat / 256 % 256))) ∧
    (v &&& 0xFFFFFFFF = 0x00010002 ↔ decode v = .ok .literalNohdr) ∧
    (v &&& 0xFFFFFFFF = 0x00000003 ↔ decode v = .ok .mdcWrap) ∧
    (v &&& 0xFFFFFFFF = 0x00000004 ↔ decode v = .ok .cfbEnc) ∧
    (v &&& 0xFFFFFFFF = 0x00000005 ↔ decode v = .ok .crcInit) ∧
    (v &&& 0xFFFFFFFF = 0x00000006 ↔ decode v = .ok .crcUpdate) ∧
    (v &&& 0xFFFFFFFF = 0x00000007 ↔ decode v = .ok .radix64) ∧
    (v &&& 0xFFFFFFFF = 0x00000008 ↔ decode v = .ok .armor)

/-- R91: the assembler gives each command line the word of the table and refuses a tag outside 0 to 255; the text of a line
is read as the line it is, whatever its case. How a line's text is cut into words is the model's reading (log entry 18). -/
def Obligations.AssemblerWords : Prop :=
  (∀ tag, assemble (.frame tag) = if tag ≤ 255 then some ((0x00000001 : Word) ||| BitVec.ofNat 32 tag <<< 8) else none) ∧
  (∀ tag, assemble (.literal tag) = if tag ≤ 255 then some ((0x00000002 : Word) ||| BitVec.ofNat 32 tag <<< 8) else none) ∧
  assemble .nop = some 0x00000000 ∧ assemble .literalNohdr = some 0x00010002 ∧
  assemble .mdcWrap = some 0x00000003 ∧ assemble .cfbEnc = some 0x00000004 ∧
  assemble .crcInit = some 0x00000005 ∧ assemble .crcUpdate = some 0x00000006 ∧
  assemble .radix64 = some 0x00000007 ∧ assemble .armor = some 0x00000008 ∧
  parseLine "FRAME 0xAC".toList = some (.command (.frame 0xAC)) ∧
  parseLine "literal 172".toList = some (.command (.literal 172)) ∧
  parseLine "literal 256".toList = none ∧
  parseLine "run Mdc.Wrap".toList = some (.run .mdcWrap)

/-! ## The step -/

/-- When the engine's turn comes, the step is the meaning of the command that the latched word decodes to (R40, R86). When the
turn comes is the model's schedule (log entry 7). -/
def Obligations.StepRunsLatchedCommand : Prop :=
  ∀ (s : State) (run : Running) (i : Instr), s.eng = .busy run → (run.wait = 0 ∨ s.script = []) →
    decode run.lat.cmd = .ok i → step s = exec i s

/-- No step of the PGE stops with a fault or a refusal: a race and an undefined access are marks in the state, and an
illegal word ends with an architected error (R17, R86, R253). That a marked state goes on is log entry 11. -/
def Obligations.StepNeverStops : Prop := ∀ s : State, ∃ t, step s = .next t

/-- A command word placed for the next step is decoded and run by it, with the operands of the registers (R37, R40). Placing
it stands for the host's CMD write (log entry 21). -/
def Obligations.FetchedWordRuns : Prop :=
  ∀ (s : State) (i : Instr), i.wellFormed = true →
    decodeTableWord 32 (encode i).toNat = some i ∧
    (s.withFetchWord 32 (encode i).toNat).eng =
      .busy ⟨latch s (encode i), destRange s (latch s (encode i)), 0⟩ ∧
    step (s.withFetchWord 32 (encode i).toNat) = exec i (s.withFetchWord 32 (encode i).toNat)

/-- R290: a command in progress is over after finitely many steps, whatever the host does meanwhile: at most `wait` host
steps and the completion step. The wait is a free value of the model (log entry 7). -/
def Obligations.AcceptedCommandEnds : Prop :=
  ∀ (s : State) (run : Running), s.Inv → s.eng = .busy run →
    ∃ k t, k ≤ run.wait + 1 ∧ Host.Core.run Sys2Proof.core k s = .next t ∧ t.eng = .idle ∧ t.busy = false

/-! ## The invariant -/

/-- The state after reset meets the invariant (R26, R280). -/
def Obligations.ResetMeetsInvariant : Prop := State.reset.Inv

/-- Every step keeps the invariant: STATUS is consistent and its error code is a defined one (R26, R240), the engine agrees
with BUSY (R41), and BUF keeps its canonical form (the model's, log entry 3) inside `P_BUF_SIZE` (R60, R65). -/
def Obligations.StepKeepsInvariant : Prop := ∀ s t : State, s.Inv → step s = .next t → t.Inv

/-! ## The commands -/

/-- R230: NOP completes and does nothing. -/
def Obligations.NopCompletes : Prop :=
  ∀ (s : State) (run : Running), s.eng = .busy run → exec .nop s = .next (Spec.succeeded s 0)

/-- R101, R102: FRAME writes the header of minimal width, big-endian, the tag sum modulo 256, and changes nothing else. -/
def Obligations.FrameWritesHeader : Prop :=
  ∀ (s : State) (run : Running) (tag : Nat), s.eng = .busy run →
    let d := run.lat.dstAddr.toNat
    let L := run.lat.srcLen.toNat
    (L < 256 → Spec.fits s ⟨d, 2⟩ →
      exec (.frame tag) s = .next ((Spec.succeeded s 2).memWrite d [BitVec.ofNat 8 (tag % 256), BitVec.ofNat 8 L])) ∧
    (256 ≤ L → L < 65536 → Spec.fits s ⟨d, 3⟩ →
      exec (.frame tag) s = .next ((Spec.succeeded s 3).memWrite d
        [BitVec.ofNat 8 ((tag + 1) % 256), BitVec.ofNat 8 (L / 256), BitVec.ofNat 8 (L % 256)])) ∧
    (65536 ≤ L → Spec.fits s ⟨d, 5⟩ →
      exec (.frame tag) s = .next ((Spec.succeeded s 5).memWrite d
        [BitVec.ofNat 8 ((tag + 2) % 256), BitVec.ofNat 8 (L / 16777216), BitVec.ofNat 8 (L / 65536 % 256),
          BitVec.ofNat 8 (L / 256 % 256), BitVec.ofNat 8 (L % 256)]))

/-- R103: the header's length is 2, 3 or 5 by the length it holds, and its length field, read big-endian, is that length. -/
def Obligations.FrameHeaderReparses : Prop :=
  ∀ tag L : Nat, L ≤ 4294967295 →
    ((frameBytes tag L).length = 2 ↔ L < 256) ∧
    ((frameBytes tag L).length = 3 ↔ 256 ≤ L ∧ L < 65536) ∧
    ((frameBytes tag L).length = 5 ↔ 65536 ≤ L) ∧
    ((frameBytes tag L).drop 1).foldl (fun v b => 256 * v + b.toNat) 0 = L

/-- R110, R111: LITERAL writes the framed packet: the header for the body's length, the 6 fixed bytes, the normalized
text. -/
def Obligations.LiteralWritesPacket : Prop :=
  ∀ (s : State) (run : Running) (tag : Nat), s.eng = .busy run →
    let l := run.lat
    let body := [0x74, 0x00, 0x00, 0x00, 0x00, 0x00] ++ normalizeText (s.memRead l.src)
    let out := frameBytes tag body.length ++ body
    Spec.fits s l.src → out.length ≤ 4294967295 → Spec.fits s ⟨l.dstAddr.toNat, out.length⟩ →
    Spec.apart l.src ⟨l.dstAddr.toNat, out.length⟩ →
    exec (.literal tag) s = .next ((Spec.succeeded s out.length).memWrite l.dstAddr.toNat out)

/-- R110, R111: LITERAL.NOHDR writes the body alone. -/
def Obligations.LiteralNohdrWritesBody : Prop :=
  ∀ (s : State) (run : Running), s.eng = .busy run →
    let l := run.lat
    let body := [0x74, 0x00, 0x00, 0x00, 0x00, 0x00] ++ normalizeText (s.memRead l.src)
    Spec.fits s l.src → body.length ≤ 4294967295 → Spec.fits s ⟨l.dstAddr.toNat, body.length⟩ →
    Spec.apart l.src ⟨l.dstAddr.toNat, body.length⟩ →
    exec .literalNohdr s = .next ((Spec.succeeded s body.length).memWrite l.dstAddr.toNat body)

/-- R112: a text with a CR LF pair is unchanged; in any other text every LF becomes CR LF. -/
def Obligations.NormalizeRewritesLoneLf : Prop :=
  ∀ t : List Byte,
    (Spec.hasPair t → normalizeText t = t) ∧
    (¬ Spec.hasPair t → normalizeText t = (t.map fun b => if b = 0x0A then [0x0D, 0x0A] else [b]).flatten)

/-- R113: normalizing twice is normalizing once. -/
def Obligations.NormalizeIdempotent : Prop := ∀ t : List Byte, normalizeText (normalizeText t) = normalizeText t

/-- R114: the length of the normalized text, of the body, and of the packet that a successful LITERAL writes. -/
def Obligations.LiteralPacketLength : Prop :=
  (∀ t : List Byte, (normalizeText t).length = if Spec.hasPair t then t.length else t.length + t.count 0x0A) ∧
  ∀ (s t : State) (run : Running) (i : Instr), s.eng = .busy run → s.done = false → exec i s = .next t → t.done = true →
    ((∃ tag, i = .literal tag) →
      t.resLen.toNat = Spec.headerLength (Spec.bodyLength s run.lat) + Spec.bodyLength s run.lat) ∧
    (i = .literalNohdr → t.resLen.toNat = Spec.bodyLength s run.lat)

/-- R133, R134: with PFXSEL = 1 MDC_WRAP takes R from PFX, makes no draw, and writes R, the echo of its last two bytes, the
packet, the sentinel and the digest of all that. -/
def Obligations.MdcWrapFixedPrefix : Prop :=
  ∀ (s : State) (run : Running), s.eng = .busy run → run.lat.pfxsel = true →
    let l := run.lat
    let n := l.srcLen.toNat
    let hashed := l.pfx.toList ++ [l.pfx[14], l.pfx[15]] ++ s.memRead l.src ++ [s.params.mdcTag.1, s.params.mdcTag.2]
    Spec.fits s l.src → n + 40 ≤ 4294967295 → Spec.fits s ⟨l.dstAddr.toNat, n + 40⟩ →
    Spec.apart l.src ⟨l.dstAddr.toNat, n + 40⟩ →
    exec .mdcWrap s =
      .next ((Spec.succeeded s (n + 40)).memWrite l.dstAddr.toNat (hashed ++ (Config.H hashed).toList))

/-- R134, R135: with PFXSEL = 0 R is the answer of one draw, made after every other check; `fail` ends the command with
RANDOM and writes nothing. -/
def Obligations.MdcWrapDrawnPrefix : Prop :=
  ∀ (s : State) (run : Running), s.eng = .busy run → run.lat.pfxsel = false →
    let l := run.lat
    let n := l.srcLen.toNat
    Spec.fits s l.src → n + 40 ≤ 4294967295 → Spec.fits s ⟨l.dstAddr.toNat, n + 40⟩ →
    Spec.apart l.src ⟨l.dstAddr.toNat, n + 40⟩ →
    (∀ r : Block, s.rng = some r →
      let hashed := r.toList ++ [r[14], r[15]] ++ s.memRead l.src ++ [s.params.mdcTag.1, s.params.mdcTag.2]
      exec .mdcWrap s = .next ((Spec.succeeded s.consumeDraw (n + 40)).memWrite l.dstAddr.toNat
        (hashed ++ (Config.H hashed).toList))) ∧
    (s.rng = none → exec .mdcWrap s = .next (Spec.failed s.consumeDraw 5 16))

/-- R136: in the output of a successful MDC_WRAP the digest of the first n + 20 bytes is the last 20, the echo repeats bytes
14 and 15, and the packet stands at offset 18. -/
def Obligations.MdcDigestVerifies : Prop :=
  ∀ (s t : State) (run : Running), s.eng = .busy run → s.done = false → exec .mdcWrap s = .next t → t.done = true →
    let d := run.lat.dstAddr.toNat
    let n := run.lat.srcLen.toNat
    (Config.H (t.memRead ⟨d, n + 20⟩)).toList = t.memRead ⟨d + n + 20, 20⟩ ∧
    t.readByte (d + 16) = t.readByte (d + 14) ∧ t.readByte (d + 17) = t.readByte (d + 15) ∧
    t.memRead ⟨d + 18, n⟩ = s.memRead run.lat.src

/-- R150, R154, R156: CFB_ENC writes the n ciphertext bytes and BLKCNT = ceil(n / 16); the auxiliary draw, where there is
one, is discarded, and its failure ends the command with RANDOM. -/
def Obligations.CfbEncCompletes : Prop :=
  ∀ (s : State) (run : Running), s.eng = .busy run →
    let l := run.lat
    let n := l.srcLen.toNat
    let out := cfbEncrypt (Config.E l.key) (s.memRead l.src)
    let after := fun u : State =>
      { (Spec.succeeded u n).memWrite l.dstAddr.toNat out with blkcnt := BitVec.ofNat 32 (Spec.ceil n 16) }
    Spec.fits s l.src → Spec.fits s ⟨l.dstAddr.toNat, n⟩ → Spec.apart l.src ⟨l.dstAddr.toNat, n⟩ →
    (s.params.auxDraw = false → exec .cfbEnc s = .next (after s)) ∧
    (s.params.auxDraw = true → s.rng ≠ none → exec .cfbEnc s = .next (after s.consumeDraw)) ∧
    (s.params.auxDraw = true → s.rng = none → exec .cfbEnc s = .next (Spec.failed s.consumeDraw 5 16))

/-- R153, R154: byte j of chunk i of the ciphertext is byte j of E of the previous ciphertext chunk (of the zero block, for
chunk 0), xor the plaintext byte; the ciphertext has the plaintext's length. -/
def Obligations.CfbBlockStep : Prop :=
  ∀ (enc : Block → Block) (p : List Byte),
    (cfbEncrypt enc p).length = p.length ∧
    ∀ (i : Nat) (j : Fin 16) (x : Byte), p[16 * i + j]? = some x →
      let fr : Block := if i = 0 then Vector.replicate 16 0
        else Vector.ofFn fun k : Fin 16 => (cfbEncrypt enc p).getD (16 * (i - 1) + k) 0
      (cfbEncrypt enc p)[16 * i + j]? = some ((enc fr)[j] ^^^ x)

/-- R159: the CFB decryptor recovers the plaintext from the truncated ciphertext, for every cipher and every length. -/
def Obligations.CfbDecryptInverts : Prop :=
  ∀ (enc : Block → Block) (p : List Byte), cfbDecrypt enc (cfbEncrypt enc p) = p

/-- R160: encrypting the first k bytes gives the first k bytes of the ciphertext. -/
def Obligations.CfbPrefixLaw : Prop :=
  ∀ (enc : Block → Block) (p : List Byte) (k : Nat), k ≤ p.length →
    cfbEncrypt enc (p.take k) = (cfbEncrypt enc p).take k

/-- R161: the state machine of the CFB engine, which writes chunk after chunk, ends after ceil(n / 16) + 4 transitions in
the state that CFB_ENC's one completion step publishes. The transitions are the model's transcription (log entry 22). -/
def Obligations.CfbEngineRefinesCommand : Prop :=
  ∀ (s : State) (run : Running), s.eng = .busy run →
    let c := cfbTransitions run.lat (Spec.ceil run.lat.srcLen.toNat 16 + 4) (CfbRun.start s)
    c.phase = .idle ∧ exec .cfbEnc s = .next c.pge

/-- R180: CRC_INIT sets the accumulator to 0xB704CE. -/
def Obligations.CrcInitCompletes : Prop :=
  ∀ (s : State) (run : Running), s.eng = .busy run →
    exec .crcInit s = .next { Spec.succeeded s 0 with crc := 0xB704CE }

/-- R183: CRC_UPDATE folds the bytes at SRC into the CRC register and changes nothing else. -/
def Obligations.CrcUpdateCompletes : Prop :=
  ∀ (s : State) (run : Running), s.eng = .busy run → Spec.fits s run.lat.src →
    exec .crcUpdate s = .next { Spec.succeeded s 0 with crc := (s.memRead run.lat.src).foldl crcStep s.crc }

/-- R184: CRC_UPDATE over one range and then over another, adjacent or not, leaves the CRC of the two byte strings joined. -/
def Obligations.CrcUpdatesCompose : Prop :=
  ∀ (s t u : State) (run₁ run₂ : Running), s.eng = .busy run₁ → Spec.fits s run₁.lat.src →
    exec .crcUpdate s = .next t → Spec.fits s run₂.lat.src →
    exec .crcUpdate { t with busy := true, done := false, eng := .busy run₂ } = .next u →
    u.crc = crcFold s.crc (s.memRead run₁.lat.src ++ s.memRead run₂.lat.src) ∧
    (s.crc = crcInitial → u.crc = crc24 (s.memRead run₁.lat.src ++ s.memRead run₂.lat.src))

/-- R182, R185: the per-byte step is the arithmetic of the rule, and no intermediate value passes its bound. -/
def Obligations.CrcStepArithmetic : Prop :=
  (∀ (c : Crc24) (b : Byte), (crcStep c b).toNat = Spec.crcRounds 8 (c.toNat ^^^ (b.toNat * 65536))) ∧
  ∀ (c b k : Nat), c < 2 ^ 24 → b < 256 →
    Spec.crcRounds k (c ^^^ (b * 65536)) < 2 ^ 24 ∧ 2 * Spec.crcRounds k (c ^^^ (b * 65536)) < 2 ^ 25

/-- R203: RADIX64 writes the wrapped radix-64 text of the bytes at SRC. -/
def Obligations.Radix64Completes : Prop :=
  ∀ (s : State) (run : Running), s.eng = .busy run →
    let l := run.lat
    let out := wrap64 (b64 (s.memRead l.src))
    Spec.fits s l.src → out.length ≤ 4294967295 → Spec.fits s ⟨l.dstAddr.toNat, out.length⟩ →
    Spec.apart l.src ⟨l.dstAddr.toNat, out.length⟩ →
    exec .radix64 s = .next ((Spec.succeeded s out.length).memWrite l.dstAddr.toNat out)

/-- R204, R203: the length of RADIX64's result, and TOO_LARGE exactly from n = 3,171,668,155 on. -/
def Obligations.Radix64LengthAndLimit : Prop :=
  (∀ (s t : State) (run : Running), s.eng = .busy run → s.done = false → exec .radix64 s = .next t → t.done = true →
    t.resLen.toNat = Spec.radixLength run.lat.srcLen.toNat) ∧
  ∀ (s : State) (run : Running), s.eng = .busy run → s.done = false → Spec.fits s run.lat.src →
    (exec .radix64 s = .next (Spec.failed s 4 0xFFFFFFFF) ↔ 3171668155 ≤ run.lat.srcLen.toNat)

/-- R200, R201: the number of characters of the radix-64 text, and every character of it: the 6-bit field of its 3-byte
group in the alphabet, or '=' where no byte of the text reaches. -/
def Obligations.RadixCharacters : Prop :=
  (∀ s : List Byte, (b64 s).length = 4 * Spec.ceil s.length 3) ∧
  ∀ (s : List Byte) (k j : Nat), 3 * k < s.length → j < 4 →
    let v := (s.getD (3 * k) 0).toNat * 65536 + (s.getD (3 * k + 1) 0).toNat * 256 + (s.getD (3 * k + 2) 0).toNat
    (b64 s)[4 * k + j]? =
      if 3 * k + j ≤ s.length then Spec.alphabet[v / 2 ^ (18 - 6 * j) % 64]? else some 0x3D

/-- R202: the wrapped text has LF after each 64 characters and after the last line, and the characters themselves in their
order between them. -/
def Obligations.WrapLayout : Prop :=
  ∀ t : List Byte,
    (wrap64 t).length = t.length + Spec.ceil t.length 64 ∧
    (∀ i, i < t.length → (wrap64 t)[i + i / 64]? = t[i]?) ∧
    ∀ k, k < Spec.ceil t.length 64 → (wrap64 t)[min (65 * k + 64) (t.length + k)]? = some 0x0A

/-- R210 to R214: ARMOR writes marker, version line, blank line, body, checksum line and end marker, and leaves the CRC of
the data in the CRC register. -/
def Obligations.ArmorCompletes : Prop :=
  ∀ (s : State) (run : Running), s.eng = .busy run →
    let l := run.lat
    let data := s.memRead l.src
    let ver := if l.versel = false then ascii "Version: VerySimple PHP-GPG v1.6.1" ++ [0x0A]
      else if l.auxLen = 0 then [] else s.memRead l.aux ++ [0x0A]
    let crc := (crc24 data).toNat
    let sum := [BitVec.ofNat 8 (crc / 65536), BitVec.ofNat 8 (crc / 256), BitVec.ofNat 8 crc]
    let text := ascii "-----BEGIN PGP MESSAGE-----" ++ [0x0A] ++ ver ++ [0x0A] ++ wrap64 (b64 data) ++
      (0x3D :: b64 sum ++ [0x0A]) ++ ascii "-----END PGP MESSAGE-----" ++ [0x0A]
    Spec.fits s l.src → (l.versel = true → Spec.fits s l.aux) → text.length ≤ 4294967295 →
    Spec.fits s ⟨l.dstAddr.toNat, text.length⟩ → Spec.apart l.src ⟨l.dstAddr.toNat, text.length⟩ →
    (l.versel = true → Spec.apart l.aux ⟨l.dstAddr.toNat, text.length⟩) →
    exec .armor s =
      .next { (Spec.succeeded s text.length).memWrite l.dstAddr.toNat text with crc := crc24 data }

/-- R215: the length of the armor text, 61 bytes beside the version line and the body. -/
def Obligations.ArmorLength : Prop :=
  ∀ (s t : State) (run : Running), s.eng = .busy run → s.done = false → exec .armor s = .next t → t.done = true →
    t.resLen.toNat = 61 + Spec.versionLength run.lat + Spec.radixLength run.lat.srcLen.toNat

/-- R216: every byte that ARMOR writes is LF or a printable ASCII character, but for the override bytes. -/
def Obligations.ArmorCharacterSet : Prop :=
  ∀ (s t : State) (run : Running), s.eng = .busy run → s.done = false → exec .armor s = .next t → t.done = true →
    ∀ b ∈ t.memRead ⟨run.lat.dstAddr.toNat, t.resLen.toNat⟩,
      b = 0x0A ∨ (0x20 ≤ b.toNat ∧ b.toNat ≤ 0x7E) ∨ (run.lat.versel = true ∧ b ∈ s.memRead run.lat.aux)

/-- R214: a successful ARMOR leaves crc24 of its data in CRC, a failed one leaves CRC unchanged, and what CRC held before
reaches nothing that ARMOR writes, the checksum line included. -/
def Obligations.ArmorCrcSideEffect : Prop :=
  ∀ (s t : State) (run : Running), s.eng = .busy run → s.done = false → exec .armor s = .next t →
    (t.done = true → t.crc = crc24 (s.memRead run.lat.src)) ∧ (t.done = false → t.crc = s.crc) ∧
    ∀ c : Crc24, exec .armor { s with crc := c } = .next (if t.done then t else { t with crc := c })

/-! ## Errors -/

/-- R242: every command word reports the first check that fails, in the one order, with the code and the info word of R240,
and completes with its result length when none fails. The draw is a field of State, and `consumeDraw` moves it on by a free
value of the model (log entry 6). -/
def Obligations.FirstFailingCheckReported : Prop :=
  (∀ (s : State) (run : Running) (e : Illegal), s.eng = .busy run → decode run.lat.cmd = .error e →
    execIllegal s = .next (Spec.failed s 1 run.lat.cmd)) ∧
  ∀ (i : Instr) (s : State) (run : Running), s.eng = .busy run →
    let l := run.lat
    (¬ Spec.srcOk i s l → exec i s = .next (Spec.failed s 2 l.srcAddr)) ∧
    (Spec.srcOk i s l → ¬ Spec.auxOk i s l → exec i s = .next (Spec.failed s 2 l.auxAddr)) ∧
    (Spec.srcOk i s l → Spec.auxOk i s l → ¬ Spec.lengthOk i s l →
      exec i s = .next (Spec.failed s 4 0xFFFFFFFF)) ∧
    (Spec.srcOk i s l → Spec.auxOk i s l → Spec.lengthOk i s l → ¬ Spec.dstOk i s l →
      exec i s = .next (Spec.failed s 2 l.dstAddr)) ∧
    (Spec.srcOk i s l → Spec.auxOk i s l → Spec.lengthOk i s l → Spec.dstOk i s l →
      ¬ (Spec.srcApart i s l ∧ Spec.auxApart i s l) → exec i s = .next (Spec.failed s 3 l.dstAddr)) ∧
    (Spec.checksPass i s l → Spec.draws i s l = true → s.rng = none →
      exec i s = .next (Spec.failed s.consumeDraw 5 16)) ∧
    (Spec.checksPass i s l → (Spec.draws i s l = true → s.rng ≠ none) →
      ∃ t, exec i s = .next t ∧ t.done = true ∧ t.err = s.err ∧ t.busy = false ∧ t.eng = .idle ∧
        t.resLen.toNat = Spec.resultLength s l i ∧ (t.oracle ≠ s.oracle → Spec.draws i s l = true))

/-- R241, R243: a command that ends with an error changes the six fields of error entry and nothing else of the PGE; it has
consumed a draw only when the error is RANDOM; the code is one of 1 to 5 (R240). -/
def Obligations.ErrorEntryChangesNothingElse : Prop :=
  ∀ (i : Instr) (s t : State), s.err = false → exec i s = .next t → t.err = true →
    t = { Spec.failed s t.errcode t.errInfo with rng := t.rng, oracle := t.oracle } ∧
    (t.errcode ≠ 5 → t.rng = s.rng ∧ t.oracle = s.oracle) ∧
    1 ≤ t.errcode.toNat ∧ t.errcode.toNat ≤ 5

/-! ## Frames and isolation -/

/-- What no command changes: CTRL, the operand registers, KEY, PFX, CMDOVR, LASTOPC, the marks and the host's side; CRC but
for CRC_INIT, CRC_UPDATE and ARMOR (R31); BLKCNT but for CFB_ENC (R36); and every byte of BUF outside
`[DST_ADDR, DST_ADDR + RES_LEN)` (R40, R64). -/
def Obligations.CommandFrame : Prop :=
  ∀ (i : Instr) (s t : State) (run : Running), s.eng = .busy run → exec i s = .next t →
    (t.ctrl = s.ctrl ∧ t.srcAddr = s.srcAddr ∧ t.srcLen = s.srcLen ∧ t.dstAddr = s.dstAddr ∧
      t.auxAddr = s.auxAddr ∧ t.auxLen = s.auxLen ∧ t.key = s.key ∧ t.pfx = s.pfx ∧
      t.cmdovr = s.cmdovr ∧ t.lastopc = s.lastopc ∧ t.faulted = s.faulted ∧ t.refused = s.refused ∧
      t.params = s.params ∧ t.script = s.script ∧ t.readData = s.readData ∧ t.bufEpoch = s.bufEpoch) ∧
    (i ≠ .crcInit → i ≠ .crcUpdate → i ≠ .armor → t.crc = s.crc) ∧
    (i ≠ .cfbEnc → t.blkcnt = s.blkcnt) ∧
    (i ≠ .mdcWrap → i ≠ .cfbEnc → t.rng = s.rng ∧ t.oracle = s.oracle) ∧
    ∀ a, ¬ (run.lat.dstAddr.toNat ≤ a ∧ a < run.lat.dstAddr.toNat + t.resLen.toNat) → t.readByte a = s.readByte a

/-- R39, R287: whatever the host writes to CTRL and the operand registers after accept, the running command's result is the
same. -/
def Obligations.OperandWritesDoNotReachRunningCommand : Prop :=
  ∀ (i : Instr) (s t : State) (c : BitVec 3) (a : Vector Word 5) (k p : Vector Word 4), exec i s = .next t →
    exec i (Spec.withOperands s c a k p) = .next (Spec.withOperands t c a k p)

/-- R71 (a): a host write to a byte outside the running command's footprint does not affect the command: writing before the
completion step or after it gives the same state. It compares two runs with the same draw (log entry 6), and the destination
range is fixed at accept (log entry 12). -/
def Obligations.WritesOutsideFootprintCommute : Prop :=
  ∀ (i : Instr) (s : State) (run : Running) (addr : Nat) (b : Byte), s.Inv → s.eng = .busy run →
    decode run.lat.cmd = .ok i → run.dst = destRange s run.lat → inFootprint s.params run addr = false →
    ∃ t, exec i s = .next t ∧ exec i (s.bufWrite addr b) = .next (t.bufWrite addr b)

/-- R72: the footprint of an accepted command: its source ranges that are in BUF, and the destination range of its result
length when no ILLEGAL, RANGE, TOO_LARGE or OVERLAP error will end it. That an illegal word has no source range either, so no
footprint, is the model's reading (log entry 12). -/
def Obligations.FootprintOfAcceptedCommand : Prop :=
  ∀ (s : State) (v : Word) (wait : Nat) (run : Running), (s.start v wait).eng = .busy run → ∀ a : Nat,
    (inFootprint s.params run a = true ↔
      ∃ i, decode v = .ok i ∧
        ((Spec.readsSrc i = true ∧ Spec.fits s run.lat.src ∧ run.lat.src.has a = true) ∨
          (Spec.readsAux i run.lat = true ∧ Spec.fits s run.lat.aux ∧ run.lat.aux.has a = true) ∨
          (Spec.checksPass i s run.lat ∧ run.lat.dstAddr.toNat ≤ a ∧
            a < run.lat.dstAddr.toNat + Spec.resultLength s run.lat i)))

/-! ## The host port -/

/-- R37, R39: a CMD write while idle is accepted, whatever the word: the operands of that instant are latched, BUSY is set,
DONE, ERR, ERRCODE and ERRINFO are cleared, LASTOPC is set. KEY and PFX are latched big-endian (R34, R35). The destination
range is the one that FootprintOfAcceptedCommand speaks of (R72, log entry 12). The wait is a free value, and the counter it
moves is the model's (log entry 7). -/
def Obligations.CmdWriteAccepted : Prop :=
  (∀ (s : State) (v : Word) (rest : List HostOp), Spec.hostTurn s (.regWrite 0x00 4 v) rest → s.eng = .idle →
    s.busy = false →
    ∃ wait, step s = .next { s with
      script := rest, busy := true, done := false, err := false, errcode := 0, lastopc := BitVec.ofNat 8 (v.toNat % 256)
      errInfo := 0, oracle := s.oracle + 1
      eng := .busy { dst := destRange s (latch s v), wait := wait, lat := {
        cmd := v, srcAddr := s.srcAddr, srcLen := s.srcLen, dstAddr := s.dstAddr, auxAddr := s.auxAddr
        auxLen := s.auxLen, pfxsel := s.ctrl.getLsbD 1, versel := s.ctrl.getLsbD 2
        key := blockOfWords s.key, pfx := blockOfWords s.pfx } } }) ∧
  ∀ (ws : Vector Word 4) (i j : Fin 4),
    (blockOfWords ws)[4 * i.val + j.val] = BitVec.ofNat 8 (ws[i].toNat / 2 ^ (24 - 8 * j.val))

/-- R38: a CMD write while busy sets CMDOVR and changes nothing else. -/
def Obligations.CmdWriteDroppedWhileBusy : Prop :=
  ∀ (s : State) (v : Word) (rest : List HostOp), Spec.hostTurn s (.regWrite 0x00 4 v) rest → s.busy = true →
    step s = .next { Spec.passed s rest with cmdovr := true }

/-- R231: a host write to each register but CMD and STATUS: the register takes the value, CTRL its low 3 bits, and a
read-only or reserved offset ignores it. -/
def Obligations.RegisterWrites : Prop :=
  ∀ (s : State) (off : Nat) (v : Word) (rest : List HostOp), Spec.hostTurn s (.regWrite off 4 v) rest →
    let u := Spec.passed s rest
    (off = 0x08 → step s = .next { u with ctrl := BitVec.ofNat 3 (v.toNat % 8) }) ∧
    (off = 0x0C → step s = .next { u with srcAddr := v }) ∧
    (off = 0x10 → step s = .next { u with srcLen := v }) ∧
    (off = 0x14 → step s = .next { u with dstAddr := v }) ∧
    (off = 0x1C → step s = .next { u with auxAddr := v }) ∧
    (off = 0x20 → step s = .next { u with auxLen := v }) ∧
    (∀ i : Fin 4, off = 0x30 + 4 * i.val → step s = .next { u with key := u.key.set i v }) ∧
    (∀ i : Fin 4, off = 0x40 + 4 * i.val → step s = .next { u with pfx := u.pfx.set i v }) ∧
    (off ∈ [0x18, 0x24, 0x28, 0x2C, 0x50] → step s = .next u) ∧
    (0x54 ≤ off → off < 0x100 → off % 4 = 0 → step s = .next u)

/-- R236: a STATUS write clears DONE by bit 1, ERR with ERRCODE by bit 2, CMDOVR by bit 3, and nothing else, ERRINFO
included; clearing DONE and ERR lowers IRQ. -/
def Obligations.StatusWriteOneToClear : Prop :=
  ∀ (s : State) (v : Word) (rest : List HostOp), Spec.hostTurn s (.regWrite 0x04 4 v) rest →
    let t : State := { Spec.passed s rest with
      done := if v.toNat.testBit 1 then false else s.done
      err := if v.toNat.testBit 2 then false else s.err
      errcode := if v.toNat.testBit 2 then 0 else s.errcode
      cmdovr := if v.toNat.testBit 3 then false else s.cmdovr }
    step s = .next t ∧ (t.done = false → t.err = false → t.irq = false)

/-- R232: what a register read returns, for every defined offset; it changes nothing. -/
def Obligations.RegisterReads : Prop :=
  ∀ (s : State) (off : Nat) (rest : List HostOp), Spec.hostTurn s (.regRead off 4) rest → off < 0x100 → off % 4 = 0 →
    ∃ w : Word, step s = .next { Spec.passed s rest with readData := some (.word w) } ∧
      (off = 0x00 → w = 0) ∧
      (off = 0x04 → w.toNat = Spec.bit s.busy + 2 * Spec.bit s.done + 4 * Spec.bit s.err + 8 * Spec.bit s.cmdovr +
        256 * s.errcode.toNat + 65536 * s.lastopc.toNat) ∧
      (off = 0x08 → w.toNat = s.ctrl.toNat) ∧
      (off = 0x0C → w = s.srcAddr) ∧ (off = 0x10 → w = s.srcLen) ∧ (off = 0x14 → w = s.dstAddr) ∧
      (off = 0x18 → w = s.resLen) ∧ (off = 0x1C → w = s.auxAddr) ∧ (off = 0x20 → w = s.auxLen) ∧
      (off = 0x24 → w.toNat = s.crc.toNat) ∧ (off = 0x28 → w = s.errInfo) ∧ (off = 0x2C → w = s.params.bufSize) ∧
      (∀ i : Fin 4, off = 0x30 + 4 * i.val → w = 0) ∧
      (∀ i : Fin 4, off = 0x40 + 4 * i.val → w = s.pfx[i]) ∧
      (off = 0x50 → w = s.blkcnt) ∧ (0x54 ≤ off → w = 0)

/-- R24 (b): an access that is not a whole word at a multiple of 4 below 0x100 sets the refusal mark; a write then does
nothing, and a read returns nothing (the model's choice, log entry 9; an aligned offset from 0x100 on, log entry 10). -/
def Obligations.UndefinedAccessRefused : Prop :=
  ∀ (s : State) (off width : Nat) (v : Word) (rest : List HostOp),
    (width ≠ 4 ∨ off % 4 ≠ 0 ∨ 0x100 ≤ off) →
    (Spec.hostTurn s (.regWrite off width v) rest → step s = .next { Spec.passed s rest with refused := true }) ∧
    (Spec.hostTurn s (.regRead off width) rest →
      step s = .next { Spec.passed s rest with refused := true, readData := none })

/-- R34, R256: no host read, of a register, of BUF or of STATUS in a `wait`, depends on KEY. For a buffer read in a running
command's destination range this is the form of the model's free value (log entry 4), since R74 leaves that byte open. -/
def Obligations.KeyNeverReadable : Prop :=
  ∀ (s t : State) (op : HostOp) (rest : List HostOp) (k : Vector Word 4),
    ((∃ off width, op = .regRead off width) ∨ (∃ addr, op = .bufRead addr) ∨ op = .wait) →
    Spec.hostTurn s op rest → step s = .next t → step { s with key := k } = .next { t with key := k }

/-- R233: the buffer port's write: ignored outside BUF, HostRace inside the running command's footprint (the byte is
written and the state marked), and plain otherwise. -/
def Obligations.BufferPortWrites : Prop :=
  ∀ (s : State) (addr : Nat) (b : Byte) (rest : List HostOp), Spec.hostTurn s (.bufWrite addr b) rest →
    let u := Spec.passed s rest
    (s.params.bufSize.toNat ≤ addr → step s = .next u) ∧
    (addr < s.params.bufSize.toNat →
      (s.eng = .idle → step s = .next (u.memWrite addr [b])) ∧
      ∀ run, s.eng = .busy run →
        (inFootprint s.params run addr = true → step s = .next { u.memWrite addr [b] with faulted := true }) ∧
        (inFootprint s.params run addr = false → step s = .next (u.memWrite addr [b])))

/-- R234: the buffer port's read: 0 outside BUF, some byte in the running command's destination range, BUF otherwise; it
changes nothing. The byte of a racing read is a free value of the model (log entry 4). -/
def Obligations.BufferPortReads : Prop :=
  ∀ (s : State) (addr : Nat) (rest : List HostOp), Spec.hostTurn s (.bufRead addr) rest →
    let u := Spec.passed s rest
    (s.params.bufSize.toNat ≤ addr → step s = .next { u with readData := some (.byte 0) }) ∧
    (addr < s.params.bufSize.toNat →
      ((∀ run, s.eng = .busy run → run.dst.has addr = false) →
        step s = .next { u with readData := some (.byte (s.readByte addr)) }) ∧
      (∀ run, s.eng = .busy run → run.dst.has addr = true →
        ∃ b, step s = .next { u with readData := some (.byte b), oracle := s.oracle + 1 }))

/-- R235, R280, R281: a reset, whatever the PGE is doing: every register at its reset value, the command abandoned, no
byte of BUF written, both marks clear; KEY, PFX and the bytes of BUF are drawn anew (free values, log entry 2); the
parameters and the host's script stay (log entry 15). -/
def Obligations.HostResetState : Prop :=
  ∀ (s : State) (rest : List HostOp), Spec.hostTurn s .reset rest →
    ∃ t, step s = .next t ∧
      t.ctrl = 0 ∧ t.srcAddr = 0 ∧ t.srcLen = 0 ∧ t.dstAddr = 0 ∧ t.auxAddr = 0 ∧ t.auxLen = 0 ∧
      t.busy = false ∧ t.done = false ∧ t.err = false ∧ t.cmdovr = false ∧ t.errcode = 0 ∧ t.lastopc = 0 ∧
      t.resLen = 0 ∧ t.errInfo = 0 ∧ t.blkcnt = 0 ∧ t.crc = 0xB704CE ∧ t.eng = .idle ∧
      t.faulted = false ∧ t.refused = false ∧ t.irq = false ∧ t.params = s.params ∧ t.script = rest ∧
      t.key = Config.resetKey s.oracle ∧ t.pfx = Config.resetPfx s.oracle ∧
      ∀ a, t.readByte a = Config.resetByte s.oracle a

/-- R253, R235, R73, R24: a mark is set only by a host write into the running command's footprint or by an undefined
access, and only a reset clears it. -/
def Obligations.MarksSetAndCleared : Prop :=
  ∀ s t : State, step s = .next t →
    (t.faulted = s.faulted ∨
      (∃ rest, Spec.hostTurn s .reset rest ∧ t.faulted = false) ∨
      (∃ addr b rest run, Spec.hostTurn s (.bufWrite addr b) rest ∧ s.eng = .busy run ∧
        inFootprint s.params run addr = true ∧ addr < s.params.bufSize.toNat ∧ t.faulted = true)) ∧
    (t.refused = s.refused ∨
      (∃ rest, Spec.hostTurn s .reset rest ∧ t.refused = false) ∨
      (∃ off width rest, (width ≠ 4 ∨ off % 4 ≠ 0 ∨ 0x100 ≤ off) ∧
        (Spec.hostTurn s (.regRead off width) rest ∨ ∃ v, Spec.hostTurn s (.regWrite off width v) rest) ∧
        t.refused = true))

/-- R250: IRQ is IE and (DONE or ERR): every completion, of a command and of an illegal word, raises it exactly when IE is set,
an accept lowers it, and so does a STATUS write that clears DONE and ERR. -/
def Obligations.InterruptLine : Prop :=
  (∀ s : State, s.irq = true ↔ s.ctrl.getLsbD 0 = true ∧ (s.done = true ∨ s.err = true)) ∧
  (∀ (i : Instr) (s t : State), exec i s = .next t → t.irq = s.ctrl.getLsbD 0) ∧
  (∀ s t : State, execIllegal s = .next t → t.irq = s.ctrl.getLsbD 0) ∧
  (∀ (s : State) (v : Word), (s.accept v).irq = false) ∧
  ∀ (s : State) (v : Word), v.getLsbD 1 = true → v.getLsbD 2 = true → (s.writeStatus v).irq = false

/-- R289, R39: while a command runs, no host access but a reset changes its latched record, its footprint or a result
register, and none sets DONE or ERR. -/
def Obligations.RunningCommandUndisturbed : Prop :=
  ∀ (s t : State) (run : Running) (op : HostOp) (rest : List HostOp), s.Inv → Spec.hostTurn s op rest →
    s.eng = .busy run → op ≠ .reset → step s = .next t →
    t.eng = .busy { run with wait := run.wait - 1 } ∧ t.resLen = s.resLen ∧ t.crc = s.crc ∧ t.blkcnt = s.blkcnt ∧
      t.errInfo = 0 ∧ t.lastopc = s.lastopc ∧ t.busy = true ∧ t.done = false ∧ t.err = false ∧ t.errcode = 0

/-- R94: `wait` reads STATUS and ends when the value read has BUSY = 0; otherwise it polls again. That each poll is one step
is the model's reading (log entry 24). -/
def Obligations.WaitPollsStatus : Prop :=
  ∀ (s : State) (rest : List HostOp), Spec.hostTurn s .wait rest →
    step s = .next { Spec.passed s rest with
      script := if s.busy then .wait :: rest else rest
      readData := some (.word s.statusWord) }
end

