-- ==== Sys2Proof/Laws/Bytes.lean ====
section
/-! SUPPORT. The lengths of the byte strings that the commands build. -/

namespace Sys2Proof.Machine

@[simp] theorem length_bigEndian (n v : Nat) : (bigEndian n v).length = n := by
  simp [bigEndian]

theorem length_frameBytes (tag len : Nat) :
    (frameBytes tag len).length = if len < 256 then 2 else if len < 65536 then 3 else 5 := by
  unfold frameBytes
  split
  · simp
  · split <;> simp

@[simp] theorem length_mdcPrefix (r : Block) : (mdcPrefix r).length = 18 := by
  simp [mdcPrefix]

@[simp] theorem length_mdcHashed (tag : Byte × Byte) (r : Block) (lit : List Byte) :
    (mdcHashed tag r lit).length = lit.length + 20 := by
  simp [mdcHashed]; omega

@[simp] theorem length_mdcStream (hash : List Byte → Digest) (tag : Byte × Byte) (r : Block) (lit : List Byte) :
    (mdcStream hash tag r lit).length = lit.length + 40 := by
  simp [mdcStream]

theorem le_mul_cfbBlocks (n : Nat) : n ≤ 16 * cfbBlocks n := by
  unfold cfbBlocks ceilDiv; omega

@[simp] theorem length_cfbChain (enc : Block → Block) (ps : List Block) :
    ∀ fr, (cfbChain enc fr ps).length = ps.length := by
  induction ps with
  | nil => intro fr; rfl
  | cons p ps ih => intro fr; simp [cfbChain, ih]

@[simp] theorem length_flatMap_blocks (cs : List Block) : (cs.flatMap Vector.toList).length = 16 * cs.length := by
  induction cs with
  | nil => rfl
  | cons c cs ih => simp [List.flatMap_cons, ih]; omega

@[simp] theorem length_cfbEncrypt (enc : Block → Block) (p : List Byte) : (cfbEncrypt enc p).length = p.length := by
  simp only [cfbEncrypt, List.length_take, length_flatMap_blocks, length_cfbChain, List.length_map, List.length_range]
  have := le_mul_cfbBlocks p.length
  omega

@[simp] theorem length_radixGroup (v : BitVec 24) : (radixGroup v).length = 4 := rfl

theorem length_b64 : ∀ s : List Byte, (b64 s).length = 4 * ceilDiv s.length 3
  | [] => rfl
  | [_] => by simp [b64, ceilDiv]
  | [_, _] => by simp [b64, ceilDiv]
  | _ :: _ :: _ :: rest => by
    have ih := length_b64 rest
    simp only [b64, List.length_append, length_radixGroup, ih, List.length_cons, ceilDiv]
    omega

theorem length_wrapLines (t : List Byte) : ∀ k, k ≤ ceilDiv t.length 64 →
    ((List.range k).flatMap (wrapLine t)).length = min (64 * k) t.length + k := by
  intro k
  induction k with
  | zero => intro _; rfl
  | succ k ih =>
    intro hk
    have ih := ih (by omega)
    simp only [ceilDiv] at hk
    simp only [List.range_succ, List.flatMap_append, List.length_append, ih, List.flatMap_singleton, wrapLine,
      List.length_take, List.length_drop, List.length_singleton]
    omega

theorem length_wrap64 (t : List Byte) : (wrap64 t).length = t.length + ceilDiv t.length 64 := by
  rw [wrap64, length_wrapLines t _ (Nat.le_refl _)]
  simp only [ceilDiv]; omega

theorem length_literalBody (text : List Byte) : (literalBody text).length = 6 + (normalizeText text).length := by
  simp [literalBody]; omega

end Sys2Proof.Machine
end

