-- ==== Sys2Proof/Laws/Armor.lean ====
section
/-! SUPPORT. The shape of wrapped radix-64 text, one line and one group at a time (44_armor.md R200, R202). -/

namespace Sys2Proof.Machine

@[simp] theorem wrap64_nil : wrap64 [] = [] := rfl

/-- A nonempty text is its first line and the wrapping of the rest. -/
theorem wrap64_cons_line (t : List Byte) (h : t ≠ []) : wrap64 t = t.take 64 ++ [lf] ++ wrap64 (t.drop 64) := by
  have hl := List.length_pos_iff.2 h
  unfold wrap64
  have : ceilDiv t.length 64 = ceilDiv (t.drop 64).length 64 + 1 := by simp [ceilDiv]; omega
  rw [this, List.range_succ_eq_map, List.flatMap_cons]
  congr 1
  rw [List.flatMap_map]
  congr 1
  funext k
  simp [wrapLine, List.drop_drop]; congr 2; omega

/-- Three bytes joined, as a number. -/
theorem toNat_group (a b c : Byte) :
    (a ++ b ++ c : BitVec 24).toNat = a.toNat * 65536 + b.toNat * 256 + c.toNat := by
  have := a.isLt
  have := b.isLt
  have := c.isLt
  rw [BitVec.toNat_append, BitVec.toNat_append, ← Nat.shiftLeft_add_eq_or_of_lt (by omega),
    ← Nat.shiftLeft_add_eq_or_of_lt (by omega), Nat.shiftLeft_eq, Nat.shiftLeft_eq]
  omega

/-- The big-endian bytes of the CRC, most significant first (R212). -/
theorem bigEndian_crc (c : Crc24) : bigEndian 3 c.toNat =
    [BitVec.ofNat 8 (c.toNat / 65536), BitVec.ofNat 8 (c.toNat / 256), BitVec.ofNat 8 c.toNat] := by
  simp [bigEndian, List.range_succ, Nat.shiftRight_eq_div_pow]

theorem memRead_eq_nil_iff (s : State) (r : Range) : s.memRead r = [] ↔ r.len = 0 := by
  rw [← List.length_eq_zero_iff]
  simp [State.memRead]

/-- The length of the version line (R215). -/
theorem length_versionLine (versel : Bool) (aux : List Byte) : (versionLine versel aux).length =
    if versel then (if aux.length = 0 then 0 else aux.length + 1) else 35 := by
  cases versel
  · have h : (defaultVersion ++ [lf]).length = 35 := by decide +kernel
    exact h
  · cases aux <;> simp [versionLine]

/-- The length of the armor text (R215). -/
theorem length_armorText (ver data : List Byte) : (armorText ver data).length =
    61 + ver.length + (4 * ceilDiv data.length 3 + ceilDiv (4 * ceilDiv data.length 3) 64) := by
  have h1 : beginMarker.length = 27 := by decide
  have h2 : endMarker.length = 25 := by decide
  simp only [armorText, List.length_append, h1, h2, length_wrap64, length_b64, checksumLine, List.length_cons,
    length_bigEndian, List.length_nil]
  simp only [ceilDiv]; omega

end Sys2Proof.Machine
end

