-- ==== Sys2Proof/Laws/Cfb.lean ====
section
/-! SUPPORT. The chaining of the CFB engine read one chunk at a time (42_cfb.md R151 to R153), and the transitions of the
state machine of R161. -/

namespace Sys2Proof.Machine

/-- A byte of a concatenation of 16-byte blocks is a byte of one block. -/
theorem getElem?_flatMap_blocks (cs : List Block) (i : Nat) (j : Fin 16) :
    (cs.flatMap Vector.toList)[16 * i + j.val]? = (cs[i]?).map fun b => b[j] := by
  induction cs generalizing i with
  | nil => simp
  | cons c cs ih =>
    rw [List.flatMap_cons]
    cases i with
    | zero =>
      rw [List.getElem?_append_left (by simp)]
      simp
    | succ i =>
      rw [List.getElem?_append_right (by simp; omega)]
      simp only [Vector.length_toList, List.getElem?_cons_succ]
      rw [← ih, show 16 * (i + 1) + j.val - 16 = 16 * i + j.val by omega]

/-- The feedback register before chunk i, when the chunks fed back are `cs`: the initial one, then the chunk before. -/
def feedback (fr : Block) (cs : List Block) : Nat → Block
  | 0 => fr
  | i + 1 => (cs[i]?).getD fr

theorem getElem?_cfbChain (enc : Block → Block) (ps : List Block) : ∀ fr i, (cfbChain enc fr ps)[i]? =
    (ps[i]?).map fun p => xorBlock (enc (feedback fr (cfbChain enc fr ps) i)) p := by
  induction ps with
  | nil => intro fr i; simp [cfbChain]
  | cons p ps ih =>
    intro fr i
    cases i with
    | zero => simp [cfbChain, feedback]
    | succ i =>
      simp only [cfbChain, List.getElem?_cons_succ, ih]
      by_cases hi : i < ps.length
      · rw [List.getElem?_eq_getElem hi]
        simp only [Option.map_some, Option.some.injEq]
        congr 2
        cases i with
        | zero => simp [feedback]
        | succ i =>
          simp only [feedback, List.getElem?_cons_succ]
          rw [List.getElem?_eq_getElem (by simp; omega)]; simp only [Option.getD_some]
      · rw [List.getElem?_eq_none (by omega)]; simp only [Option.map_none]

theorem getElem?_cfbUnchain (enc : Block → Block) (cs : List Block) : ∀ fr i, (cfbUnchain enc fr cs)[i]? =
    (cs[i]?).map fun c => xorBlock (enc (feedback fr cs i)) c := by
  induction cs with
  | nil => intro fr i; simp [cfbUnchain]
  | cons c cs ih =>
    intro fr i
    cases i with
    | zero => simp [cfbUnchain, feedback]
    | succ i =>
      simp only [cfbUnchain, List.getElem?_cons_succ, ih]
      by_cases hi : i < cs.length
      · rw [List.getElem?_eq_getElem hi]
        simp only [Option.map_some, Option.some.injEq]
        congr 2
        cases i with
        | zero => simp [feedback]
        | succ i =>
          simp only [feedback, List.getElem?_cons_succ]
          rw [List.getElem?_eq_getElem (by omega)]; simp only [Option.getD_some]
      · rw [List.getElem?_eq_none (by omega)]; simp only [Option.map_none]

@[simp] theorem length_cfbUnchain (enc : Block → Block) (cs : List Block) :
    ∀ fr, (cfbUnchain enc fr cs).length = cs.length := by
  induction cs with
  | nil => intro fr; rfl
  | cons c cs ih => intro fr; simp [cfbUnchain, ih]

@[simp] theorem length_cfbDecrypt (enc : Block → Block) (c : List Byte) : (cfbDecrypt enc c).length = c.length := by
  simp only [cfbDecrypt, List.length_take, length_flatMap_blocks, length_cfbUnchain, List.length_map, List.length_range]
  have := le_mul_cfbBlocks c.length
  omega

/-- The chunks of a byte string, by index. -/
theorem getElem?_chunks (p : List Byte) (i : Nat) (hi : 16 * i < p.length) :
    ((List.range (cfbBlocks p.length)).map (cfbChunk p))[i]? = some (cfbChunk p i) := by
  have : i < cfbBlocks p.length := by have := le_mul_cfbBlocks p.length; omega
  simp [this]

theorem getElem_cfbChunk (p : List Byte) (i : Nat) (j : Fin 16) (x : Byte) (h : p[16 * i + j.val]? = some x) :
    (cfbChunk p i)[j] = x := by
  simp [cfbChunk, List.getD, h]

theorem cfbTransitions_add (l : Latched) (a b : Nat) :
    ∀ c, cfbTransitions l (a + b) c = cfbTransitions l b (cfbTransitions l a c) := by
  induction a with
  | zero => intro c; simp [cfbTransitions]
  | succ a ih => intro c; rw [Nat.add_right_comm]; exact ih _

theorem cfbTransitions_idle (l : Latched) (k : Nat) (c : CfbRun) (h : c.phase = .idle) : cfbTransitions l k c = c := by
  induction k with
  | zero => rfl
  | succ k ih => rw [cfbTransitions, cfbTransition, h]; exact ih

end Sys2Proof.Machine
end

