-- ==== Sys2Proof/Laws/State.lean ====
section
/-! SUPPORT. One lemma for each field under each shared update of the state: what the update leaves in the field. -/

namespace Sys2Proof.Machine

variable (s : State)

/-! Every field after a host write to STATUS (R236). -/

@[simp] theorem State.writeStatus_ctrl (v : Word) : (s.writeStatus v).ctrl = s.ctrl := rfl
@[simp] theorem State.writeStatus_srcAddr (v : Word) : (s.writeStatus v).srcAddr = s.srcAddr := rfl
@[simp] theorem State.writeStatus_srcLen (v : Word) : (s.writeStatus v).srcLen = s.srcLen := rfl
@[simp] theorem State.writeStatus_dstAddr (v : Word) : (s.writeStatus v).dstAddr = s.dstAddr := rfl
@[simp] theorem State.writeStatus_auxAddr (v : Word) : (s.writeStatus v).auxAddr = s.auxAddr := rfl
@[simp] theorem State.writeStatus_auxLen (v : Word) : (s.writeStatus v).auxLen = s.auxLen := rfl
@[simp] theorem State.writeStatus_busy (v : Word) : (s.writeStatus v).busy = s.busy := rfl
@[simp] theorem State.writeStatus_done (v : Word) : (s.writeStatus v).done = (s.done && !v.getLsbD 1) := rfl
@[simp] theorem State.writeStatus_err (v : Word) : (s.writeStatus v).err = (s.err && !v.getLsbD 2) := rfl
@[simp] theorem State.writeStatus_cmdovr (v : Word) : (s.writeStatus v).cmdovr = (s.cmdovr && !v.getLsbD 3) := rfl
@[simp] theorem State.writeStatus_errcode (v : Word) : (s.writeStatus v).errcode = (if v.getLsbD 2 then 0 else s.errcode) := rfl
@[simp] theorem State.writeStatus_lastopc (v : Word) : (s.writeStatus v).lastopc = s.lastopc := rfl
@[simp] theorem State.writeStatus_resLen (v : Word) : (s.writeStatus v).resLen = s.resLen := rfl
@[simp] theorem State.writeStatus_errInfo (v : Word) : (s.writeStatus v).errInfo = s.errInfo := rfl
@[simp] theorem State.writeStatus_blkcnt (v : Word) : (s.writeStatus v).blkcnt = s.blkcnt := rfl
@[simp] theorem State.writeStatus_crc (v : Word) : (s.writeStatus v).crc = s.crc := rfl
@[simp] theorem State.writeStatus_key (v : Word) : (s.writeStatus v).key = s.key := rfl
@[simp] theorem State.writeStatus_pfx (v : Word) : (s.writeStatus v).pfx = s.pfx := rfl
@[simp] theorem State.writeStatus_buf (v : Word) : (s.writeStatus v).buf = s.buf := rfl
@[simp] theorem State.writeStatus_eng (v : Word) : (s.writeStatus v).eng = s.eng := rfl
@[simp] theorem State.writeStatus_faulted (v : Word) : (s.writeStatus v).faulted = s.faulted := rfl
@[simp] theorem State.writeStatus_refused (v : Word) : (s.writeStatus v).refused = s.refused := rfl
@[simp] theorem State.writeStatus_params (v : Word) : (s.writeStatus v).params = s.params := rfl
@[simp] theorem State.writeStatus_script (v : Word) : (s.writeStatus v).script = s.script := rfl
@[simp] theorem State.writeStatus_readData (v : Word) : (s.writeStatus v).readData = s.readData := rfl
@[simp] theorem State.writeStatus_rng (v : Word) : (s.writeStatus v).rng = s.rng := rfl
@[simp] theorem State.writeStatus_oracle (v : Word) : (s.writeStatus v).oracle = s.oracle := rfl
@[simp] theorem State.writeStatus_bufEpoch (v : Word) : (s.writeStatus v).bufEpoch = s.bufEpoch := rfl

/-! Every field after one draw (R16). -/

@[simp] theorem State.consumeDraw_ctrl : (s.consumeDraw).ctrl = s.ctrl := rfl
@[simp] theorem State.consumeDraw_srcAddr : (s.consumeDraw).srcAddr = s.srcAddr := rfl
@[simp] theorem State.consumeDraw_srcLen : (s.consumeDraw).srcLen = s.srcLen := rfl
@[simp] theorem State.consumeDraw_dstAddr : (s.consumeDraw).dstAddr = s.dstAddr := rfl
@[simp] theorem State.consumeDraw_auxAddr : (s.consumeDraw).auxAddr = s.auxAddr := rfl
@[simp] theorem State.consumeDraw_auxLen : (s.consumeDraw).auxLen = s.auxLen := rfl
@[simp] theorem State.consumeDraw_busy : (s.consumeDraw).busy = s.busy := rfl
@[simp] theorem State.consumeDraw_done : (s.consumeDraw).done = s.done := rfl
@[simp] theorem State.consumeDraw_err : (s.consumeDraw).err = s.err := rfl
@[simp] theorem State.consumeDraw_cmdovr : (s.consumeDraw).cmdovr = s.cmdovr := rfl
@[simp] theorem State.consumeDraw_errcode : (s.consumeDraw).errcode = s.errcode := rfl
@[simp] theorem State.consumeDraw_lastopc : (s.consumeDraw).lastopc = s.lastopc := rfl
@[simp] theorem State.consumeDraw_resLen : (s.consumeDraw).resLen = s.resLen := rfl
@[simp] theorem State.consumeDraw_errInfo : (s.consumeDraw).errInfo = s.errInfo := rfl
@[simp] theorem State.consumeDraw_blkcnt : (s.consumeDraw).blkcnt = s.blkcnt := rfl
@[simp] theorem State.consumeDraw_crc : (s.consumeDraw).crc = s.crc := rfl
@[simp] theorem State.consumeDraw_key : (s.consumeDraw).key = s.key := rfl
@[simp] theorem State.consumeDraw_pfx : (s.consumeDraw).pfx = s.pfx := rfl
@[simp] theorem State.consumeDraw_buf : (s.consumeDraw).buf = s.buf := rfl
@[simp] theorem State.consumeDraw_eng : (s.consumeDraw).eng = s.eng := rfl
@[simp] theorem State.consumeDraw_faulted : (s.consumeDraw).faulted = s.faulted := rfl
@[simp] theorem State.consumeDraw_refused : (s.consumeDraw).refused = s.refused := rfl
@[simp] theorem State.consumeDraw_params : (s.consumeDraw).params = s.params := rfl
@[simp] theorem State.consumeDraw_script : (s.consumeDraw).script = s.script := rfl
@[simp] theorem State.consumeDraw_readData : (s.consumeDraw).readData = s.readData := rfl
@[simp] theorem State.consumeDraw_rng : (s.consumeDraw).rng = Config.draw16 s.oracle := rfl
@[simp] theorem State.consumeDraw_oracle : (s.consumeDraw).oracle = s.oracle + 1 := rfl
@[simp] theorem State.consumeDraw_bufEpoch : (s.consumeDraw).bufEpoch = s.bufEpoch := rfl

/-! Every field after completion with success (R40). -/

@[simp] theorem State.completeOk_ctrl (o : Output) : (s.completeOk o).ctrl = s.ctrl := rfl
@[simp] theorem State.completeOk_srcAddr (o : Output) : (s.completeOk o).srcAddr = s.srcAddr := rfl
@[simp] theorem State.completeOk_srcLen (o : Output) : (s.completeOk o).srcLen = s.srcLen := rfl
@[simp] theorem State.completeOk_dstAddr (o : Output) : (s.completeOk o).dstAddr = s.dstAddr := rfl
@[simp] theorem State.completeOk_auxAddr (o : Output) : (s.completeOk o).auxAddr = s.auxAddr := rfl
@[simp] theorem State.completeOk_auxLen (o : Output) : (s.completeOk o).auxLen = s.auxLen := rfl
@[simp] theorem State.completeOk_busy (o : Output) : (s.completeOk o).busy = false := rfl
@[simp] theorem State.completeOk_done (o : Output) : (s.completeOk o).done = true := rfl
@[simp] theorem State.completeOk_err (o : Output) : (s.completeOk o).err = s.err := rfl
@[simp] theorem State.completeOk_cmdovr (o : Output) : (s.completeOk o).cmdovr = s.cmdovr := rfl
@[simp] theorem State.completeOk_errcode (o : Output) : (s.completeOk o).errcode = s.errcode := rfl
@[simp] theorem State.completeOk_lastopc (o : Output) : (s.completeOk o).lastopc = s.lastopc := rfl
@[simp] theorem State.completeOk_resLen (o : Output) : (s.completeOk o).resLen = BitVec.ofNat 32 o.resLen := rfl
@[simp] theorem State.completeOk_errInfo (o : Output) : (s.completeOk o).errInfo = s.errInfo := rfl
@[simp] theorem State.completeOk_blkcnt (o : Output) : (s.completeOk o).blkcnt = (o.blkOut.map (BitVec.ofNat 32)).getD s.blkcnt := rfl
@[simp] theorem State.completeOk_crc (o : Output) : (s.completeOk o).crc = o.crcOut.getD s.crc := rfl
@[simp] theorem State.completeOk_key (o : Output) : (s.completeOk o).key = s.key := rfl
@[simp] theorem State.completeOk_pfx (o : Output) : (s.completeOk o).pfx = s.pfx := rfl
@[simp] theorem State.completeOk_buf (o : Output) : (s.completeOk o).buf = Memory.putAll s.buf o.writes := rfl
@[simp] theorem State.completeOk_eng (o : Output) : (s.completeOk o).eng = .idle := rfl
@[simp] theorem State.completeOk_faulted (o : Output) : (s.completeOk o).faulted = s.faulted := rfl
@[simp] theorem State.completeOk_refused (o : Output) : (s.completeOk o).refused = s.refused := rfl
@[simp] theorem State.completeOk_params (o : Output) : (s.completeOk o).params = s.params := rfl
@[simp] theorem State.completeOk_script (o : Output) : (s.completeOk o).script = s.script := rfl
@[simp] theorem State.completeOk_readData (o : Output) : (s.completeOk o).readData = s.readData := rfl
@[simp] theorem State.completeOk_rng (o : Output) : (s.completeOk o).rng = s.rng := rfl
@[simp] theorem State.completeOk_oracle (o : Output) : (s.completeOk o).oracle = s.oracle := rfl
@[simp] theorem State.completeOk_bufEpoch (o : Output) : (s.completeOk o).bufEpoch = s.bufEpoch := rfl

/-! Every field after error entry (R241). -/

@[simp] theorem State.errorEntry_ctrl (e : Err) : (s.errorEntry e).ctrl = s.ctrl := rfl
@[simp] theorem State.errorEntry_srcAddr (e : Err) : (s.errorEntry e).srcAddr = s.srcAddr := rfl
@[simp] theorem State.errorEntry_srcLen (e : Err) : (s.errorEntry e).srcLen = s.srcLen := rfl
@[simp] theorem State.errorEntry_dstAddr (e : Err) : (s.errorEntry e).dstAddr = s.dstAddr := rfl
@[simp] theorem State.errorEntry_auxAddr (e : Err) : (s.errorEntry e).auxAddr = s.auxAddr := rfl
@[simp] theorem State.errorEntry_auxLen (e : Err) : (s.errorEntry e).auxLen = s.auxLen := rfl
@[simp] theorem State.errorEntry_busy (e : Err) : (s.errorEntry e).busy = false := rfl
@[simp] theorem State.errorEntry_done (e : Err) : (s.errorEntry e).done = s.done := rfl
@[simp] theorem State.errorEntry_err (e : Err) : (s.errorEntry e).err = true := rfl
@[simp] theorem State.errorEntry_cmdovr (e : Err) : (s.errorEntry e).cmdovr = s.cmdovr := rfl
@[simp] theorem State.errorEntry_errcode (e : Err) : (s.errorEntry e).errcode = e.code.number := rfl
@[simp] theorem State.errorEntry_lastopc (e : Err) : (s.errorEntry e).lastopc = s.lastopc := rfl
@[simp] theorem State.errorEntry_resLen (e : Err) : (s.errorEntry e).resLen = 0 := rfl
@[simp] theorem State.errorEntry_errInfo (e : Err) : (s.errorEntry e).errInfo = e.info := rfl
@[simp] theorem State.errorEntry_blkcnt (e : Err) : (s.errorEntry e).blkcnt = s.blkcnt := rfl
@[simp] theorem State.errorEntry_crc (e : Err) : (s.errorEntry e).crc = s.crc := rfl
@[simp] theorem State.errorEntry_key (e : Err) : (s.errorEntry e).key = s.key := rfl
@[simp] theorem State.errorEntry_pfx (e : Err) : (s.errorEntry e).pfx = s.pfx := rfl
@[simp] theorem State.errorEntry_buf (e : Err) : (s.errorEntry e).buf = s.buf := rfl
@[simp] theorem State.errorEntry_eng (e : Err) : (s.errorEntry e).eng = .idle := rfl
@[simp] theorem State.errorEntry_faulted (e : Err) : (s.errorEntry e).faulted = s.faulted := rfl
@[simp] theorem State.errorEntry_refused (e : Err) : (s.errorEntry e).refused = s.refused := rfl
@[simp] theorem State.errorEntry_params (e : Err) : (s.errorEntry e).params = s.params := rfl
@[simp] theorem State.errorEntry_script (e : Err) : (s.errorEntry e).script = s.script := rfl
@[simp] theorem State.errorEntry_readData (e : Err) : (s.errorEntry e).readData = s.readData := rfl
@[simp] theorem State.errorEntry_rng (e : Err) : (s.errorEntry e).rng = s.rng := rfl
@[simp] theorem State.errorEntry_oracle (e : Err) : (s.errorEntry e).oracle = s.oracle := rfl
@[simp] theorem State.errorEntry_bufEpoch (e : Err) : (s.errorEntry e).bufEpoch = s.bufEpoch := rfl

/-! Every field after the start of a command (R37). -/

@[simp] theorem State.start_ctrl (v : Word) (w : Nat) : (s.start v w).ctrl = s.ctrl := rfl
@[simp] theorem State.start_srcAddr (v : Word) (w : Nat) : (s.start v w).srcAddr = s.srcAddr := rfl
@[simp] theorem State.start_srcLen (v : Word) (w : Nat) : (s.start v w).srcLen = s.srcLen := rfl
@[simp] theorem State.start_dstAddr (v : Word) (w : Nat) : (s.start v w).dstAddr = s.dstAddr := rfl
@[simp] theorem State.start_auxAddr (v : Word) (w : Nat) : (s.start v w).auxAddr = s.auxAddr := rfl
@[simp] theorem State.start_auxLen (v : Word) (w : Nat) : (s.start v w).auxLen = s.auxLen := rfl
@[simp] theorem State.start_busy (v : Word) (w : Nat) : (s.start v w).busy = true := rfl
@[simp] theorem State.start_done (v : Word) (w : Nat) : (s.start v w).done = false := rfl
@[simp] theorem State.start_err (v : Word) (w : Nat) : (s.start v w).err = false := rfl
@[simp] theorem State.start_cmdovr (v : Word) (w : Nat) : (s.start v w).cmdovr = s.cmdovr := rfl
@[simp] theorem State.start_errcode (v : Word) (w : Nat) : (s.start v w).errcode = 0 := rfl
@[simp] theorem State.start_lastopc (v : Word) (w : Nat) : (s.start v w).lastopc = opcField v := rfl
@[simp] theorem State.start_resLen (v : Word) (w : Nat) : (s.start v w).resLen = s.resLen := rfl
@[simp] theorem State.start_errInfo (v : Word) (w : Nat) : (s.start v w).errInfo = 0 := rfl
@[simp] theorem State.start_blkcnt (v : Word) (w : Nat) : (s.start v w).blkcnt = s.blkcnt := rfl
@[simp] theorem State.start_crc (v : Word) (w : Nat) : (s.start v w).crc = s.crc := rfl
@[simp] theorem State.start_key (v : Word) (w : Nat) : (s.start v w).key = s.key := rfl
@[simp] theorem State.start_pfx (v : Word) (w : Nat) : (s.start v w).pfx = s.pfx := rfl
@[simp] theorem State.start_buf (v : Word) (w : Nat) : (s.start v w).buf = s.buf := rfl
@[simp] theorem State.start_eng (v : Word) (w : Nat) : (s.start v w).eng = .busy ⟨latch s v, destRange s (latch s v), w⟩ := rfl
@[simp] theorem State.start_faulted (v : Word) (w : Nat) : (s.start v w).faulted = s.faulted := rfl
@[simp] theorem State.start_refused (v : Word) (w : Nat) : (s.start v w).refused = s.refused := rfl
@[simp] theorem State.start_params (v : Word) (w : Nat) : (s.start v w).params = s.params := rfl
@[simp] theorem State.start_script (v : Word) (w : Nat) : (s.start v w).script = s.script := rfl
@[simp] theorem State.start_readData (v : Word) (w : Nat) : (s.start v w).readData = s.readData := rfl
@[simp] theorem State.start_rng (v : Word) (w : Nat) : (s.start v w).rng = s.rng := rfl
@[simp] theorem State.start_oracle (v : Word) (w : Nat) : (s.start v w).oracle = s.oracle := rfl
@[simp] theorem State.start_bufEpoch (v : Word) (w : Nat) : (s.start v w).bufEpoch = s.bufEpoch := rfl

/-! Every field after a write to BUF (R11). -/

@[simp] theorem State.memWrite_ctrl (a : Nat) (bs : List Byte) : (s.memWrite a bs).ctrl = s.ctrl := rfl
@[simp] theorem State.memWrite_srcAddr (a : Nat) (bs : List Byte) : (s.memWrite a bs).srcAddr = s.srcAddr := rfl
@[simp] theorem State.memWrite_srcLen (a : Nat) (bs : List Byte) : (s.memWrite a bs).srcLen = s.srcLen := rfl
@[simp] theorem State.memWrite_dstAddr (a : Nat) (bs : List Byte) : (s.memWrite a bs).dstAddr = s.dstAddr := rfl
@[simp] theorem State.memWrite_auxAddr (a : Nat) (bs : List Byte) : (s.memWrite a bs).auxAddr = s.auxAddr := rfl
@[simp] theorem State.memWrite_auxLen (a : Nat) (bs : List Byte) : (s.memWrite a bs).auxLen = s.auxLen := rfl
@[simp] theorem State.memWrite_busy (a : Nat) (bs : List Byte) : (s.memWrite a bs).busy = s.busy := rfl
@[simp] theorem State.memWrite_done (a : Nat) (bs : List Byte) : (s.memWrite a bs).done = s.done := rfl
@[simp] theorem State.memWrite_err (a : Nat) (bs : List Byte) : (s.memWrite a bs).err = s.err := rfl
@[simp] theorem State.memWrite_cmdovr (a : Nat) (bs : List Byte) : (s.memWrite a bs).cmdovr = s.cmdovr := rfl
@[simp] theorem State.memWrite_errcode (a : Nat) (bs : List Byte) : (s.memWrite a bs).errcode = s.errcode := rfl
@[simp] theorem State.memWrite_lastopc (a : Nat) (bs : List Byte) : (s.memWrite a bs).lastopc = s.lastopc := rfl
@[simp] theorem State.memWrite_resLen (a : Nat) (bs : List Byte) : (s.memWrite a bs).resLen = s.resLen := rfl
@[simp] theorem State.memWrite_errInfo (a : Nat) (bs : List Byte) : (s.memWrite a bs).errInfo = s.errInfo := rfl
@[simp] theorem State.memWrite_blkcnt (a : Nat) (bs : List Byte) : (s.memWrite a bs).blkcnt = s.blkcnt := rfl
@[simp] theorem State.memWrite_crc (a : Nat) (bs : List Byte) : (s.memWrite a bs).crc = s.crc := rfl
@[simp] theorem State.memWrite_key (a : Nat) (bs : List Byte) : (s.memWrite a bs).key = s.key := rfl
@[simp] theorem State.memWrite_pfx (a : Nat) (bs : List Byte) : (s.memWrite a bs).pfx = s.pfx := rfl
@[simp] theorem State.memWrite_buf (a : Nat) (bs : List Byte) : (s.memWrite a bs).buf = Memory.putBytes s.buf a bs := rfl
@[simp] theorem State.memWrite_eng (a : Nat) (bs : List Byte) : (s.memWrite a bs).eng = s.eng := rfl
@[simp] theorem State.memWrite_faulted (a : Nat) (bs : List Byte) : (s.memWrite a bs).faulted = s.faulted := rfl
@[simp] theorem State.memWrite_refused (a : Nat) (bs : List Byte) : (s.memWrite a bs).refused = s.refused := rfl
@[simp] theorem State.memWrite_params (a : Nat) (bs : List Byte) : (s.memWrite a bs).params = s.params := rfl
@[simp] theorem State.memWrite_script (a : Nat) (bs : List Byte) : (s.memWrite a bs).script = s.script := rfl
@[simp] theorem State.memWrite_readData (a : Nat) (bs : List Byte) : (s.memWrite a bs).readData = s.readData := rfl
@[simp] theorem State.memWrite_rng (a : Nat) (bs : List Byte) : (s.memWrite a bs).rng = s.rng := rfl
@[simp] theorem State.memWrite_oracle (a : Nat) (bs : List Byte) : (s.memWrite a bs).oracle = s.oracle := rfl
@[simp] theorem State.memWrite_bufEpoch (a : Nat) (bs : List Byte) : (s.memWrite a bs).bufEpoch = s.bufEpoch := rfl

/-! Every field after a byte write to BUF. -/

@[simp] theorem State.writeByte_ctrl (a : Nat) (b : Byte) : (s.writeByte a b).ctrl = s.ctrl := rfl
@[simp] theorem State.writeByte_srcAddr (a : Nat) (b : Byte) : (s.writeByte a b).srcAddr = s.srcAddr := rfl
@[simp] theorem State.writeByte_srcLen (a : Nat) (b : Byte) : (s.writeByte a b).srcLen = s.srcLen := rfl
@[simp] theorem State.writeByte_dstAddr (a : Nat) (b : Byte) : (s.writeByte a b).dstAddr = s.dstAddr := rfl
@[simp] theorem State.writeByte_auxAddr (a : Nat) (b : Byte) : (s.writeByte a b).auxAddr = s.auxAddr := rfl
@[simp] theorem State.writeByte_auxLen (a : Nat) (b : Byte) : (s.writeByte a b).auxLen = s.auxLen := rfl
@[simp] theorem State.writeByte_busy (a : Nat) (b : Byte) : (s.writeByte a b).busy = s.busy := rfl
@[simp] theorem State.writeByte_done (a : Nat) (b : Byte) : (s.writeByte a b).done = s.done := rfl
@[simp] theorem State.writeByte_err (a : Nat) (b : Byte) : (s.writeByte a b).err = s.err := rfl
@[simp] theorem State.writeByte_cmdovr (a : Nat) (b : Byte) : (s.writeByte a b).cmdovr = s.cmdovr := rfl
@[simp] theorem State.writeByte_errcode (a : Nat) (b : Byte) : (s.writeByte a b).errcode = s.errcode := rfl
@[simp] theorem State.writeByte_lastopc (a : Nat) (b : Byte) : (s.writeByte a b).lastopc = s.lastopc := rfl
@[simp] theorem State.writeByte_resLen (a : Nat) (b : Byte) : (s.writeByte a b).resLen = s.resLen := rfl
@[simp] theorem State.writeByte_errInfo (a : Nat) (b : Byte) : (s.writeByte a b).errInfo = s.errInfo := rfl
@[simp] theorem State.writeByte_blkcnt (a : Nat) (b : Byte) : (s.writeByte a b).blkcnt = s.blkcnt := rfl
@[simp] theorem State.writeByte_crc (a : Nat) (b : Byte) : (s.writeByte a b).crc = s.crc := rfl
@[simp] theorem State.writeByte_key (a : Nat) (b : Byte) : (s.writeByte a b).key = s.key := rfl
@[simp] theorem State.writeByte_pfx (a : Nat) (b : Byte) : (s.writeByte a b).pfx = s.pfx := rfl
@[simp] theorem State.writeByte_buf (a : Nat) (b : Byte) : (s.writeByte a b).buf = Memory.put s.buf a b := rfl
@[simp] theorem State.writeByte_eng (a : Nat) (b : Byte) : (s.writeByte a b).eng = s.eng := rfl
@[simp] theorem State.writeByte_faulted (a : Nat) (b : Byte) : (s.writeByte a b).faulted = s.faulted := rfl
@[simp] theorem State.writeByte_refused (a : Nat) (b : Byte) : (s.writeByte a b).refused = s.refused := rfl
@[simp] theorem State.writeByte_params (a : Nat) (b : Byte) : (s.writeByte a b).params = s.params := rfl
@[simp] theorem State.writeByte_script (a : Nat) (b : Byte) : (s.writeByte a b).script = s.script := rfl
@[simp] theorem State.writeByte_readData (a : Nat) (b : Byte) : (s.writeByte a b).readData = s.readData := rfl
@[simp] theorem State.writeByte_rng (a : Nat) (b : Byte) : (s.writeByte a b).rng = s.rng := rfl
@[simp] theorem State.writeByte_oracle (a : Nat) (b : Byte) : (s.writeByte a b).oracle = s.oracle := rfl
@[simp] theorem State.writeByte_bufEpoch (a : Nat) (b : Byte) : (s.writeByte a b).bufEpoch = s.bufEpoch := rfl

end Sys2Proof.Machine
end

