-- ==== Sys2Proof/Laws/Memory.lean ====
section
/-! SUPPORT. The laws of BUF: a read after a write, what a write leaves alone, and that every memory operation keeps the
canonical form and the bound on the addresses. -/

namespace Sys2Proof.Machine

theorem Memory.get_put (m : Memory) (a b : Nat) (x : Byte) :
    Memory.get (Memory.put m a x) b = if a = b then some x else Memory.get m b := by
  induction m with
  | nil => simp [Memory.put, Memory.get]
  | cons c m ih =>
    obtain ⟨k, y⟩ := c
    simp only [Memory.put]
    split
    · simp [Memory.get]
    · split
      · rename_i h; subst h; by_cases hb : a = b <;> simp [Memory.get, hb]
      · simp only [Memory.get, ih]
        by_cases hk : k = b
        · have : a ≠ b := by omega
          simp [hk, this]
        · simp [hk]

theorem Memory.get_putBytes (bs : List Byte) : ∀ (m : Memory) (a b : Nat),
    Memory.get (Memory.putBytes m a bs) b =
      if a ≤ b ∧ b < a + bs.length then bs[b - a]? else Memory.get m b := by
  induction bs with
  | nil => intro m a b; simp [Memory.putBytes]
  | cons x bs ih =>
    intro m a b
    simp only [Memory.putBytes, ih, Memory.get_put, List.length_cons]
    rcases Nat.lt_trichotomy a b with h | h | h
    · obtain ⟨j, hj⟩ : ∃ j, b - a = j + 1 := ⟨b - a - 1, by omega⟩
      have h1 : b - (a + 1) = j := by omega
      have h2 : (a + 1 ≤ b ∧ b < a + 1 + bs.length) = (a ≤ b ∧ b < a + (bs.length + 1)) := by
        simp only [eq_iff_iff]; omega
      simp only [h1, h2, hj, List.getElem?_cons_succ, if_neg (Nat.ne_of_lt h)]
    · subst h; simp
    · rw [if_neg (by omega), if_neg (by omega), if_neg (by omega)]

theorem Memory.mem_put {m : Memory} {a : Nat} {x : Byte} {c : Host.Cell} (h : c ∈ Memory.put m a x) :
    c.1 = a ∨ c ∈ m := by
  induction m with
  | nil => simp [Memory.put] at h; simp [h]
  | cons d m ih =>
    obtain ⟨k, y⟩ := d
    simp only [Memory.put] at h
    split at h
    · rcases List.mem_cons.1 h with rfl | h
      · exact .inl rfl
      · exact .inr h
    · split at h
      · rcases List.mem_cons.1 h with rfl | h
        · exact .inl rfl
        · exact .inr (List.mem_cons_of_mem _ h)
      · rcases List.mem_cons.1 h with rfl | h
        · exact .inr (List.mem_cons_self ..)
        · exact (ih h).imp_right (List.mem_cons_of_mem _)

theorem Memory.wf_put {m : Memory} (h : Memory.wf m) (a : Nat) (x : Byte) : Memory.wf (Memory.put m a x) := by
  induction m with
  | nil => simp [Memory.put]
  | cons d m ih =>
    obtain ⟨k, y⟩ := d
    have hd := List.pairwise_cons.1 h
    simp only [Memory.put]
    split
    · rename_i ha
      refine List.pairwise_cons.2 ⟨fun c hc => ?_, h⟩
      rcases List.mem_cons.1 hc with rfl | hc
      · exact ha
      · exact Nat.lt_trans ha (hd.1 c hc)
    · split
      · rename_i hk; subst hk; exact List.pairwise_cons.2 hd
      · refine List.pairwise_cons.2 ⟨fun c hc => ?_, ih hd.2⟩
        rcases Memory.mem_put hc with hc | hc
        · simp only [hc]; omega
        · exact hd.1 c hc

theorem Memory.wf_putBytes (bs : List Byte) : ∀ {m : Memory}, Memory.wf m → ∀ a, Memory.wf (Memory.putBytes m a bs) := by
  induction bs with
  | nil => intro m h a; exact h
  | cons x bs ih => intro m h a; exact ih (Memory.wf_put h a x) _

theorem Memory.putBytes_bound {n : Nat} (bs : List Byte) : ∀ {m : Memory} {a : Nat}, (∀ c ∈ m, c.1 < n) →
    a + bs.length ≤ n → ∀ c ∈ Memory.putBytes m a bs, c.1 < n := by
  induction bs with
  | nil => intro m a h _; exact h
  | cons x bs ih =>
    intro m a h hb
    simp only [List.length_cons] at hb
    refine ih (fun c hc => ?_) (by omega)
    rcases Memory.mem_put hc with hc | hc
    · omega
    · exact h c hc

theorem Memory.putBytes_append (xs ys : List Byte) : ∀ (m : Memory) (a : Nat),
    Memory.putBytes m a (xs ++ ys) = Memory.putBytes (Memory.putBytes m a xs) (a + xs.length) ys := by
  induction xs with
  | nil => intro m a; rfl
  | cons x xs ih =>
    intro m a
    simp only [List.cons_append, Memory.putBytes, ih, List.length_cons]
    congr 1; omega

/-- The canonical form is kept by writes at different addresses in either order: the two memories are equal data. -/
theorem Memory.put_comm {m : Memory} (h : Memory.wf m) {a b : Nat} (hab : a ≠ b) (x y : Byte) :
    Memory.put (Memory.put m a x) b y = Memory.put (Memory.put m b y) a x := by
  induction m with
  | nil => simp only [Memory.put]; split <;> split <;> first | omega | rfl | (split <;> first | omega | rfl)
  | cons d m ih =>
    obtain ⟨k, z⟩ := d
    have ih := ih (List.pairwise_cons.1 h).2
    rcases Nat.lt_trichotomy a k with ha | ha | ha <;> rcases Nat.lt_trichotomy b k with hb | hb | hb <;>
      rcases Nat.lt_or_gt_of_ne hab with hh | hh <;>
      simp_all [Memory.put, Nat.ne_of_lt, Nat.ne_of_gt, Nat.not_lt_of_lt] <;> omega

theorem Memory.putBytes_put_comm (bs : List Byte) : ∀ {m : Memory}, Memory.wf m → ∀ {a b : Nat} (y : Byte),
    ¬ (a ≤ b ∧ b < a + bs.length) →
    Memory.putBytes (Memory.put m b y) a bs = Memory.put (Memory.putBytes m a bs) b y := by
  induction bs with
  | nil => intro m _ a b y _; rfl
  | cons x bs ih =>
    intro m h a b y hb
    simp only [List.length_cons] at hb
    simp only [Memory.putBytes]
    rw [Memory.put_comm h (by omega : b ≠ a), ih (Memory.wf_put h a x) y (by omega)]

@[simp] theorem State.readByte_writeByte (s : State) (a b : Nat) (x : Byte) :
    (s.writeByte a x).readByte b = if a = b then x else s.readByte b := by
  simp only [State.readByte, State.writeByte_buf, State.writeByte_bufEpoch, Memory.get_put]
  split <;> rfl

/-- Reading one byte after a byte string has been written: the byte written there, or the one that stood there before. -/
theorem State.readByte_memWrite (s : State) (a b : Nat) (bs : List Byte) :
    (s.memWrite a bs).readByte b =
      if h : a ≤ b ∧ b < a + bs.length then bs[b - a]'(by omega) else s.readByte b := by
  simp only [State.readByte, State.memWrite_buf, State.memWrite_bufEpoch, Memory.get_putBytes]
  split
  · rw [List.getElem?_eq_getElem (by omega)]; rfl
  · rfl

theorem State.readByte_congr {s t : State} (hb : s.buf = t.buf) (he : s.bufEpoch = t.bufEpoch) (a : Nat) :
    s.readByte a = t.readByte a := by
  simp only [State.readByte, hb, he]

@[simp] theorem State.length_memRead (s : State) (r : Range) : (s.memRead r).length = r.len := by
  simp [State.memRead]

theorem State.getElem_memRead (s : State) (r : Range) {i : Nat} (h : i < (s.memRead r).length) :
    (s.memRead r)[i] = s.readByte (r.start + i) := by
  simp [State.memRead]

theorem State.memRead_congr {s t : State} {r : Range} (h : ∀ a, r.has a = true → s.readByte a = t.readByte a) :
    s.memRead r = t.memRead r := by
  refine List.map_congr_left fun i hi => h _ ?_
  have := List.mem_range.1 hi
  simp [Range.has]; omega

end Sys2Proof.Machine
end

