-- ==== Sys2Proof/Laws/Ops.lean ====
section
/-! SUPPORT. What the shared operations can do: the ordered checks, the completion step, and what a command's result may
hold. Later proofs cite these and do not unfold the commands again. -/

namespace Sys2Proof.Machine

theorem firstError_eq_none {cs : List (Bool × Err)} : firstError cs = none ↔ ∀ c ∈ cs, c.1 = true := by
  induction cs with
  | nil => simp [firstError]
  | cons c cs ih =>
    obtain ⟨b, e⟩ := c
    cases b <;> simp [firstError, ih]

theorem firstError_mem {cs : List (Bool × Err)} {e : Err} (h : firstError cs = some e) : (false, e) ∈ cs := by
  induction cs with
  | nil => cases h
  | cons c cs ih =>
    obtain ⟨b, e'⟩ := c
    cases b
    · cases h; exact List.mem_cons_self ..
    · exact List.mem_cons_of_mem _ (ih h)

/-- A guarded command ends with the error of a failed check and makes no draw, or every check passed. -/
theorem guarded_cases (cs : List (Bool × Err)) (k : Completed) :
    (∃ e, firstError cs = some e ∧ guarded cs k = ⟨false, .err e⟩) ∨
      ((∀ c ∈ cs, c.1 = true) ∧ guarded cs k = k) := by
  unfold guarded
  cases h : firstError cs with
  | some e => exact .inl ⟨e, rfl, rfl⟩
  | none => exact .inr ⟨firstError_eq_none.1 h, rfl⟩

theorem guarded_of_pass {cs : List (Bool × Err)} (h : ∀ c ∈ cs, c.1 = true) (k : Completed) : guarded cs k = k := by
  rw [guarded, firstError_eq_none.2 h]

theorem guarded_ok {cs : List (Bool × Err)} {k : Completed} {o : Output} (h : (guarded cs k).result = .ok o) :
    (∀ c ∈ cs, c.1 = true) ∧ k.result = .ok o := by
  rcases guarded_cases cs k with ⟨e, -, hk⟩ | ⟨hc, hk⟩
  · rw [hk] at h; cases h
  · exact ⟨hc, hk ▸ h⟩

theorem withDraw_ok {s : State} {k : Block → Output} {o : Output} (h : (withDraw s k).result = .ok o) :
    ∃ r, s.rng = some r ∧ o = k r := by
  unfold withDraw at h
  split at h
  · cases h
  · cases h; exact ⟨_, ‹_›, rfl⟩

/-- Every meaning is the completion step of the command's result function. -/
theorem exec_eq_complete (i : Instr) (s : State) : exec i s = complete (resultOf i) s := by
  cases i <;> rfl

theorem complete_busy {f : State → Latched → Completed} {s : State} {run : Running} (h : s.eng = .busy run) :
    complete f s = .next (s.publish (f s run.lat)) := by
  simp only [complete, h]

theorem exec_busy {i : Instr} {s : State} {run : Running} (h : s.eng = .busy run) :
    exec i s = .next (s.publish (resultOf i s run.lat)) := by
  rw [exec_eq_complete, complete_busy h]

/-- A meaning answers a next state only for a latched command, and that state publishes the command's result. -/
theorem exec_next {i : Instr} {s t : State} (h : exec i s = .next t) :
    ∃ run, s.eng = .busy run ∧ t = s.publish (resultOf i s run.lat) := by
  rw [exec_eq_complete, complete] at h
  cases he : s.eng with
  | idle => rw [he] at h; cases h
  | busy run => rw [he] at h; cases h; exact ⟨run, rfl, rfl⟩

/-- Publishing has two ends, each perhaps after one draw. -/
theorem publish_cases (s : State) (c : Completed) :
    (∃ o, c.result = .ok o ∧ s.publish c = (if c.drew then s.consumeDraw else s).completeOk o) ∨
      (∃ e, c.result = .err e ∧ s.publish c = (if c.drew then s.consumeDraw else s).errorEntry e) := by
  unfold State.publish
  cases c.result with
  | ok o => exact .inl ⟨o, rfl, rfl⟩
  | err e => exact .inr ⟨e, rfl, rfl⟩

/-- What a draw leaves: everything but the random source and the free-value counter. -/
theorem drawn_fields (s : State) (d : Bool) :
    let t := if d then s.consumeDraw else s
    t = { s with rng := t.rng, oracle := t.oracle } := by
  cases d <;> rfl

theorem inBuf_iff {p : Params} {r : Range} : inBuf p r = true ↔ r.start + r.len ≤ p.bufSize.toNat := by
  simp [inBuf]

theorem inBuf_false_iff {p : Params} {r : Range} : inBuf p r = false ↔ p.bufSize.toNat < r.start + r.len := by
  simp [inBuf]

theorem Range.has_iff {r : Range} {a : Nat} : r.has a = true ↔ r.start ≤ a ∧ a < r.start + r.len := by
  simp [Range.has]

/-- Ranges that do not overlap have no byte in common. -/
theorem not_has_of_overlap_false {r q : Range} (h : overlap r q = false) {a : Nat} (ha : r.has a = true) :
    q.has a = false := by
  by_contra hq
  rw [Bool.not_eq_false, Range.has_iff] at hq
  rw [Range.has_iff] at ha
  simp [overlap] at h
  omega

/-- What a command's success may hold: no write, or one write of a byte string at DST_ADDR whose length is the result
length, inside BUF and clear of every source range. -/
structure WritesDst (i : Instr) (s : State) (l : Latched) (o : Output) : Prop where
  shape : (o.writes = [] ∧ o.resLen = 0) ∨
    ∃ bytes, o.writes = [(l.dstAddr.toNat, bytes)] ∧ bytes.length = o.resLen ∧
      inBuf s.params (l.dst o.resLen) = true
  clear : ∀ r ∈ sourceRanges i l, overlap r (l.dst o.resLen) = false
  short : o.resLen ≤ maxLen

theorem overlap_zero (r : Range) (l : Latched) : overlap r (l.dst 0) = false := by
  simp [overlap, Latched.dst]

/-- A success that writes one byte string at DST_ADDR, from the checks that it passed. -/
theorem WritesDst.ofAtDst {i : Instr} {s : State} {l : Latched} {bytes : List Byte} {crc : Option Crc24}
    (hb : inBuf s.params (l.dst bytes.length) = true) (hm : bytes.length ≤ maxLen)
    (hr : ∀ r ∈ sourceRanges i l, overlap r (l.dst bytes.length) = false) :
    WritesDst i s l { Output.atDst l bytes with crcOut := crc } :=
  ⟨.inr ⟨bytes, rfl, rfl, hb⟩, hr, hm⟩

theorem frameResult_ok {tag : Nat} {s : State} {l : Latched} {o : Output}
    (h : (frameResult tag s l).result = .ok o) : WritesDst (.frame tag) s l o := by
  obtain ⟨hc, hk⟩ := guarded_ok h
  cases hk
  refine .ofAtDst (crc := none) (by simpa using hc) ?_ (by simp [sourceRanges])
  rw [length_frameBytes]; split_ifs <;> decide

theorem literalResult_ok {tag : Nat} {hdr : Bool} {s : State} {l : Latched} {o : Output} {i : Instr}
    (hi : sourceRanges i l = [l.src]) (h : (literalResult tag hdr s l).result = .ok o) : WritesDst i s l o := by
  obtain ⟨hc, hk⟩ := guarded_ok h
  cases hk
  simp only [List.mem_cons, List.not_mem_nil, or_false, forall_eq_or_imp, forall_eq] at hc
  obtain ⟨-, -, h3, h4, h5⟩ := hc
  exact .ofAtDst (crc := none) h4 (by simpa using h3) (by simpa [hi] using h5)

theorem mdcResult_ok {s : State} {l : Latched} {o : Output} (h : (mdcResult s l).result = .ok o) :
    WritesDst .mdcWrap s l o := by
  obtain ⟨hc, hk⟩ := guarded_ok h
  simp only [List.mem_cons, List.not_mem_nil, or_false, forall_eq_or_imp, forall_eq] at hc
  obtain ⟨-, h2, h3, h4⟩ := hc
  obtain ⟨r, rfl⟩ : ∃ r : Block, o =
      { Output.atDst l (mdcStream Config.H s.params.mdcTag r (s.memRead l.src)) with
        resLen := l.srcLen.toNat + 40 } := by
    split at hk
    · cases hk; exact ⟨_, rfl⟩
    · obtain ⟨r, -, rfl⟩ := withDraw_ok hk; exact ⟨r, rfl⟩
  exact ⟨.inr ⟨_, rfl, by simp [Latched.src], h3⟩, by simpa [sourceRanges] using h4, by simpa using h2⟩

theorem cfbResult_ok {s : State} {l : Latched} {o : Output} (h : (cfbResult s l).result = .ok o) :
    o = cfbOutput s l ∧ ∀ c ∈ cfbChecks s l, c.1 = true := by
  obtain ⟨hc, hk⟩ := guarded_ok h
  refine ⟨?_, hc⟩
  split at hk
  · obtain ⟨r, -, rfl⟩ := withDraw_ok hk; rfl
  · cases hk; rfl

theorem cfbOutput_writes {s : State} {l : Latched} (hc : ∀ c ∈ cfbChecks s l, c.1 = true) :
    WritesDst .cfbEnc s l (cfbOutput s l) := by
  simp only [cfbChecks, List.mem_cons, List.not_mem_nil, or_false, forall_eq_or_imp, forall_eq] at hc
  obtain ⟨-, h2, h3⟩ := hc
  refine ⟨.inr ⟨_, rfl, by simp [cfbOutput, Latched.src], h2⟩, by simpa [sourceRanges, cfbOutput] using h3, ?_⟩
  have := l.srcLen.isLt
  simp only [cfbOutput, maxLen]; omega

theorem radix64Result_ok {s : State} {l : Latched} {o : Output} (h : (radix64Result s l).result = .ok o) :
    WritesDst .radix64 s l o := by
  obtain ⟨hc, hk⟩ := guarded_ok h
  cases hk
  simp only [List.mem_cons, List.not_mem_nil, or_false, forall_eq_or_imp, forall_eq] at hc
  obtain ⟨-, h3, h4, h5⟩ := hc
  exact .ofAtDst (crc := none) h4 (by simpa using h3) (by simpa [sourceRanges] using h5)

theorem armorResult_ok {s : State} {l : Latched} {o : Output} (h : (armorResult s l).result = .ok o) :
    WritesDst .armor s l o := by
  obtain ⟨hc, hk⟩ := guarded_ok h
  cases hk
  simp only [List.mem_cons, List.not_mem_nil, or_false, forall_eq_or_imp, forall_eq] at hc
  obtain ⟨-, -, h3, h4, h5, h6⟩ := hc
  refine .ofAtDst h4 (by simpa using h3) ?_
  cases hv : l.versel <;> simp_all [sourceRanges]

/-- What a command's success may hold, for every command. -/
theorem resultOf_ok {i : Instr} {s : State} {l : Latched} {o : Output} (h : (resultOf i s l).result = .ok o) :
    WritesDst i s l o := by
  cases i with
  | nop => cases h; exact ⟨.inl ⟨rfl, rfl⟩, by simp [sourceRanges], by simp⟩
  | crcInit => cases h; exact ⟨.inl ⟨rfl, rfl⟩, by simp [sourceRanges], by simp⟩
  | frame tag => exact frameResult_ok h
  | literal tag => exact literalResult_ok rfl h
  | literalNohdr => exact literalResult_ok rfl h
  | mdcWrap => exact mdcResult_ok h
  | cfbEnc => obtain ⟨rfl, hc⟩ := cfbResult_ok h; exact cfbOutput_writes hc
  | crcUpdate =>
    obtain ⟨-, hk⟩ := guarded_ok (show (crcUpdateResult s l).result = .ok o from h)
    cases hk
    exact ⟨.inl ⟨rfl, rfl⟩, fun r _ => overlap_zero r l, by simp⟩
  | radix64 => exact radix64Result_ok h
  | armor => exact armorResult_ok h

end Sys2Proof.Machine
end

