-- ==== Sys2Proof/Laws/Step.lean ====
section
/-! SUPPORT. Whose turn a step is, and what the step is on each turn: later proofs cite these and do not unfold `step`. -/

namespace Sys2Proof.Machine

/-- The three turns, each with what the state says. -/
theorem turn_cases (s : State) :
    (∃ run, s.eng = .busy run ∧ (run.wait = 0 ∨ s.script = []) ∧ s.turn = .engine run) ∨
      (∃ op rest, s.script = op :: rest ∧ (∀ run, s.eng = .busy run → run.wait ≠ 0) ∧ s.turn = .host op rest) ∨
      (s.eng = .idle ∧ s.script = [] ∧ s.turn = .quiet) := by
  unfold State.turn
  cases he : s.eng with
  | idle => cases hs : s.script <;> simp
  | busy run =>
    cases hs : s.script with
    | nil => simp
    | cons op rest => by_cases hw : run.wait = 0 <;> simp [hw]

theorem turn_engine {s : State} {run : Running} (he : s.eng = .busy run) (hw : run.wait = 0 ∨ s.script = []) :
    s.turn = .engine run := by
  unfold State.turn
  rw [he]
  cases hs : s.script with
  | nil => rfl
  | cons op rest =>
    rcases hw with hw | hw
    · simp [hw]
    · rw [hs] at hw; cases hw

theorem turn_host {s : State} {op : HostOp} {rest : List HostOp} (hs : s.script = op :: rest)
    (hw : ∀ run, s.eng = .busy run → run.wait ≠ 0) : s.turn = .host op rest := by
  unfold State.turn
  rw [hs]
  cases he : s.eng with
  | idle => rfl
  | busy run => simp [hw run he]

/-- On the engine's turn the step publishes the result of the latched word. -/
theorem step_engine {s : State} {run : Running} (he : s.eng = .busy run) (hw : run.wait = 0 ∨ s.script = []) :
    step s = match decode run.lat.cmd with
      | .ok i => .next (s.publish (resultOf i s run.lat))
      | .error _ => .next (s.publish (illegalResult s run.lat)) := by
  rw [step, turn_engine he hw]
  cases hd : decode run.lat.cmd with
  | ok i => simp only [hd, exec_busy he]
  | error e => simp only [hd, execIllegal, complete_busy he]

/-- On the host's turn the step is the access at the head of the script. -/
theorem step_host {s : State} {op : HostOp} {rest : List HostOp} (hs : s.script = op :: rest)
    (hw : ∀ run, s.eng = .busy run → run.wait ≠ 0) : step s = .next (hostStep op rest s) := by
  rw [step, turn_host hs hw]

/-- One host step passed, field by field: only the remaining script and the wait of a command in progress change. -/
theorem tick_eq (s : State) (rest : List HostOp) :
    State.tick { s with script := rest } =
      { s with
        script := rest
        eng := match s.eng with
          | .idle => .idle
          | .busy run => .busy { run with wait := run.wait - 1 } } := by
  unfold State.tick
  cases he : s.eng <;> simp

/-- An access of the host leaves a command in progress latched as it is, but for its wait, unless it is a reset. -/
theorem footprint_wait (p : Params) (run : Running) (k a : Nat) :
    inFootprint p { run with wait := k } a = inFootprint p run a := rfl

end Sys2Proof.Machine
end

