-- ==== Sys2Proof/Laws/Commands.lean ====
section
/-! SUPPORT. Once for every command, what its result is: the error of the first failing check of R242, in the words of the
statements, and otherwise a success of the stated length, perhaps after one draw. Later proofs cite `resultOf_cases`. -/

namespace Sys2Proof.Machine

theorem fits_iff {s : State} {r : Range} : Spec.fits s r ↔ inBuf s.params r = true := by simp [inBuf_iff]

theorem apart_iff {r q : Range} : Spec.apart r q ↔ overlap r q = false := by
  simp [overlap, Spec.apart]; omega

theorem firstError_cons (b : Bool) (e : Err) (cs : List (Bool × Err)) :
    firstError ((b, e) :: cs) = if b = true then firstError cs else some e := by
  cases b <;> simp [firstError]

open Classical in
/-- The error of the first check of R242 that fails, items 2 to 7; none when all pass. -/
noncomputable def checkError (i : Instr) (s : State) (l : Latched) : Option Err :=
  if ¬ Spec.srcOk i s l then some (.range l.srcAddr)
  else if ¬ Spec.auxOk i s l then some (.range l.auxAddr)
  else if ¬ Spec.lengthOk i s l then some .tooLarge
  else if ¬ Spec.dstOk i s l then some (.range l.dstAddr)
  else if ¬ (Spec.srcApart i s l ∧ Spec.auxApart i s l) then some (.overlap l.dstAddr)
  else none

theorem checkError_none_iff {i : Instr} {s : State} {l : Latched} :
    checkError i s l = none ↔ Spec.checksPass i s l := by
  constructor
  · intro h
    unfold checkError at h
    split_ifs at h with a b c d e
    exact ⟨a, b, c, d, e⟩
  · rintro ⟨a1, a2, a3, a4, a5⟩
    rw [checkError, if_neg (not_not.2 a1), if_neg (not_not.2 a2), if_neg (not_not.2 a3), if_neg (not_not.2 a4),
      if_neg (not_not.2 a5)]

/-- A success of the stated length, or one draw and then such a success (R16). -/
def Succeeds (i : Instr) (s : State) (l : Latched) (k : Completed) : Prop :=
  (∃ o, k = .ok o ∧ o.resLen = Spec.resultLength s l i ∧ Spec.draws i s l = false) ∨
    ∃ f, k = withDraw s f ∧ (∀ r, (f r).resLen = Spec.resultLength s l i) ∧ Spec.draws i s l = true

/-- What a command's result is, in every state. -/
def ResultCases (i : Instr) (s : State) (l : Latched) : Prop :=
  ∃ k, Succeeds i s l k ∧
    resultOf i s l = match checkError i s l with
      | some e => ⟨false, .err e⟩
      | none => k

theorem ResultCases.ofOk {i : Instr} {s : State} {l : Latched} {cs : List (Bool × Err)} {o : Output}
    (h : resultOf i s l = guarded cs (.ok o)) (hc : firstError cs = checkError i s l)
    (hl : o.resLen = Spec.resultLength s l i) (hd : Spec.draws i s l = false) : ResultCases i s l :=
  ⟨_, .inl ⟨o, rfl, hl, hd⟩, by
    rw [h, ← hc]; unfold guarded; cases firstError cs <;> rfl⟩

theorem ResultCases.ofDraw {i : Instr} {s : State} {l : Latched} {cs : List (Bool × Err)} {f : Block → Output}
    (h : resultOf i s l = guarded cs (withDraw s f)) (hc : firstError cs = checkError i s l)
    (hl : ∀ r, (f r).resLen = Spec.resultLength s l i) (hd : Spec.draws i s l = true) : ResultCases i s l :=
  ⟨_, .inr ⟨f, rfl, hl, hd⟩, by
    rw [h, ← hc]; unfold guarded; cases firstError cs <;> rfl⟩

/-- The checks of a command that reads SRC, not AUX, and writes m bytes at DST. -/
def plainChecks (s : State) (l : Latched) (m : Nat) : List (Bool × Err) :=
  [(inBuf s.params l.src, .range l.srcAddr),
   (m ≤ maxLen, .tooLarge),
   (inBuf s.params (l.dst m), .range l.dstAddr),
   (!overlap l.src (l.dst m), .overlap l.dstAddr)]

theorem firstError_plainChecks {i : Instr} {s : State} {l : Latched} (h1 : Spec.readsSrc i = true)
    (h2 : Spec.readsAux i l = false) (h3 : Spec.writesNothing i = false) :
    firstError (plainChecks s l (Spec.resultLength s l i)) = checkError i s l := by
  have b1 := @fits_iff s l.src
  have b2 := @fits_iff s (l.dst (Spec.resultLength s l i))
  have b3 := @apart_iff l.src (l.dst (Spec.resultLength s l i))
  rw [show l.dst (Spec.resultLength s l i) = ⟨l.dstAddr.toNat, Spec.resultLength s l i⟩ from rfl] at *
  unfold checkError plainChecks
  simp only [Spec.srcOk, Spec.auxOk, Spec.lengthOk, Spec.dstOk, Spec.srcApart, Spec.auxApart, h1, h2, h3, forall_const,
    Bool.false_eq_true, false_implies, and_true, not_true_eq_false, if_false, firstError_cons, firstError]
  rw [show l.dst (Spec.resultLength s l i) = ⟨l.dstAddr.toNat, Spec.resultLength s l i⟩ from rfl]
  simp only [← b1, ← b2, Bool.not_eq_true', ← b3, decide_eq_true_eq, ite_not, maxLen]

theorem length_frameBytes_eq (tag n : Nat) : (frameBytes tag n).length = Spec.headerLength n := length_frameBytes tag n

theorem length_wrapped (s : State) (r : Range) :
    (wrap64 (b64 (s.memRead r))).length = Spec.radixLength r.len := by
  rw [length_wrap64, length_b64, State.length_memRead]; rfl

theorem length_armorOf (s : State) (l : Latched) :
    (armorText (versionLine l.versel (s.memRead l.aux)) (s.memRead l.src)).length =
      61 + Spec.versionLength l + Spec.radixLength l.srcLen.toNat := by
  rw [length_armorText, length_versionLine, State.length_memRead, State.length_memRead]
  rfl

theorem resultCases_frame (tag : Nat) (s : State) (l : Latched) : ResultCases (.frame tag) s l := by
  refine .ofOk rfl ?_ (length_frameBytes_eq tag l.srcLen.toNat) rfl
  have : Spec.headerLength l.srcLen.toNat ≤ 4294967295 := by
    unfold Spec.headerLength; split <;> [skip; split] <;> omega
  simp only [firstError_cons, ← fits_iff, length_frameBytes_eq]
  simp only [checkError, Spec.readsSrc, Spec.readsAux, Spec.writesNothing, Spec.resultLength, firstError, Spec.srcOk,
    Spec.auxOk, Spec.lengthOk, Spec.dstOk, Spec.srcApart, Spec.auxApart, this, Latched.dst]
  simp
  split_ifs <;> first | rfl | omega

theorem resultCases_crcUpdate (s : State) (l : Latched) : ResultCases .crcUpdate s l := by
  refine .ofOk rfl ?_ rfl rfl
  simp only [firstError_cons, ← fits_iff]
  simp only [checkError, Spec.readsSrc, Spec.readsAux, Spec.writesNothing, Spec.resultLength, firstError, Spec.srcOk,
    Spec.auxOk, Spec.lengthOk, Spec.dstOk, Spec.srcApart, Spec.auxApart]
  simp
  split_ifs <;> first | rfl | omega

theorem resultCases_literal (tag : Nat) (s : State) (l : Latched) : ResultCases (.literal tag) s l := by
  have e : (frameBytes tag (literalBody (s.memRead l.src)).length ++ literalBody (s.memRead l.src)).length =
      Spec.resultLength s l (.literal tag) := by
    simp only [List.length_append, length_frameBytes_eq, length_literalBody]; rfl
  have e' : (literalBody (s.memRead l.src)).length ≤ Spec.resultLength s l (.literal tag) := by rw [← e]; simp
  refine .ofOk (o := .atDst l (frameBytes tag (literalBody (s.memRead l.src)).length ++ literalBody (s.memRead l.src)))
    rfl ?_ e rfl
  rw [← firstError_plainChecks rfl rfl rfl]
  simp only [if_true]
  rw [e]
  simp only [plainChecks, firstError_cons, decide_eq_true_eq, Bool.not_true, Bool.false_or, maxLen]
  by_cases h1 : Spec.resultLength s l (.literal tag) ≤ 4294967295
  · rw [if_pos (show (literalBody (s.memRead l.src)).length ≤ 4294967295 by omega)]
  · simp only [if_neg h1, ite_self]

theorem resultCases_literalNohdr (s : State) (l : Latched) : ResultCases .literalNohdr s l := by
  have e : (literalBody (s.memRead l.src)).length = Spec.resultLength s l .literalNohdr := by
    simp only [length_literalBody]; rfl
  refine .ofOk (o := .atDst l (literalBody (s.memRead l.src))) rfl ?_ e rfl
  rw [← firstError_plainChecks rfl rfl rfl]
  simp only [Bool.false_eq_true, if_false, e]
  simp only [plainChecks, firstError_cons, Bool.not_false, Bool.true_or, if_true]

theorem resultCases_mdcWrap (s : State) (l : Latched) : ResultCases .mdcWrap s l := by
  have hc := firstError_plainChecks (i := .mdcWrap) (s := s) (l := l) rfl rfl rfl
  have hr : resultOf .mdcWrap s l = mdcResult s l := rfl
  cases hp : l.pfxsel with
  | true =>
    refine .ofOk (o := { Output.atDst l (mdcStream Config.H s.params.mdcTag l.pfx (s.memRead l.src)) with
      resLen := l.srcLen.toNat + 40 }) ?_ hc rfl (by simp [Spec.draws, hp])
    rw [hr, mdcResult]; simp only [hp]; rfl
  | false =>
    refine .ofDraw (f := fun r => { Output.atDst l (mdcStream Config.H s.params.mdcTag r (s.memRead l.src)) with
      resLen := l.srcLen.toNat + 40 }) ?_ hc (fun _ => rfl) (by simp [Spec.draws, hp])
    rw [hr, mdcResult]; simp only [hp]; rfl

theorem resultCases_cfbEnc (s : State) (l : Latched) : ResultCases .cfbEnc s l := by
  have hn := l.srcLen.isLt
  have hc : firstError (cfbChecks s l) = checkError .cfbEnc s l := by
    rw [← firstError_plainChecks rfl rfl rfl]
    have : Spec.resultLength s l .cfbEnc ≤ 4294967295 := by show l.srcLen.toNat ≤ _; omega
    simp only [plainChecks, cfbChecks, firstError_cons, decide_eq_true_eq, maxLen, this, if_true]
    rfl
  have hr : resultOf .cfbEnc s l = cfbResult s l := rfl
  cases hp : s.params.auxDraw with
  | true =>
    refine .ofDraw (f := fun _ => cfbOutput s l) ?_ hc (fun _ => rfl) (by simp [Spec.draws, hp])
    rw [hr, cfbResult, if_pos hp]
  | false =>
    refine .ofOk (o := cfbOutput s l) ?_ hc rfl (by simp [Spec.draws, hp])
    rw [hr, cfbResult, if_neg (by simp [hp])]

theorem resultCases_radix64 (s : State) (l : Latched) : ResultCases .radix64 s l := by
  have e : (wrap64 (b64 (s.memRead l.src))).length = Spec.resultLength s l .radix64 := length_wrapped ..
  refine .ofOk (o := .atDst l (wrap64 (b64 (s.memRead l.src)))) rfl ?_ e rfl
  rw [← firstError_plainChecks rfl rfl rfl, e]; rfl

theorem resultCases_armor (s : State) (l : Latched) : ResultCases .armor s l := by
  have e : _ = Spec.resultLength s l .armor := length_armorOf s l
  refine .ofOk (o := { Output.atDst l (armorText (versionLine l.versel (s.memRead l.aux)) (s.memRead l.src)) with
    crcOut := some (crc24 (s.memRead l.src)) }) rfl ?_ e rfl
  rw [e]
  generalize hm : Spec.resultLength s l .armor = m
  have b1 := @fits_iff s l.src
  have b2 := @fits_iff s ⟨l.dstAddr.toNat, m⟩
  have b3 := @apart_iff l.src ⟨l.dstAddr.toNat, m⟩
  have b4 := @fits_iff s l.aux
  have b5 := @apart_iff l.aux ⟨l.dstAddr.toNat, m⟩
  unfold checkError
  rw [show l.dst m = ⟨l.dstAddr.toNat, m⟩ from rfl]
  simp only [Spec.srcOk, Spec.auxOk, Spec.lengthOk, Spec.dstOk, Spec.srcApart, Spec.auxApart, hm, Spec.readsSrc,
    Spec.readsAux, Spec.writesNothing, firstError_cons, firstError, forall_const, beq_self_eq_true, Bool.true_and]
  simp only [Bool.or_eq_true, ← b1, ← b2, Bool.not_eq_true', ← b3, ← b4, ← b5, decide_eq_true_eq, ite_not, maxLen]
  clear b1 b2 b3 b4 b5 hm
  cases hv : l.versel <;>
    simp only [true_or, Bool.true_eq_false, false_or, if_true, Bool.false_eq_true, false_implies, and_true,
      true_implies]
  simp only [ite_and]

/-- Every command's result, in every state (R242). -/
theorem resultOf_cases (i : Instr) (s : State) (l : Latched) : ResultCases i s l := by
  cases i with
  | nop =>
    refine .ofOk (cs := []) rfl ?_ rfl rfl
    simp [checkError, firstError, Spec.readsSrc, Spec.readsAux, Spec.writesNothing, Spec.resultLength]
  | crcInit =>
    refine .ofOk (cs := []) rfl ?_ rfl rfl
    simp [checkError, firstError, Spec.readsSrc, Spec.readsAux, Spec.writesNothing, Spec.resultLength]
  | frame tag => exact resultCases_frame tag s l
  | literal tag => exact resultCases_literal tag s l
  | literalNohdr => exact resultCases_literalNohdr s l
  | mdcWrap => exact resultCases_mdcWrap s l
  | cfbEnc => exact resultCases_cfbEnc s l
  | crcUpdate => exact resultCases_crcUpdate s l
  | radix64 => exact resultCases_radix64 s l
  | armor => exact resultCases_armor s l

/-- The source ranges of a command, as the two conditions of R64. -/
theorem any_sourceRanges_iff {i : Instr} {l : Latched} {a : Nat} {p : Params} :
    ((sourceRanges i l).any fun r => inBuf p r && r.has a) = true ↔
      (Spec.readsSrc i = true ∧ inBuf p l.src = true ∧ l.src.has a = true) ∨
        (Spec.readsAux i l = true ∧ inBuf p l.aux = true ∧ l.aux.has a = true) := by
  cases i <;> simp [sourceRanges, Spec.readsSrc, Spec.readsAux]
  cases l.versel <;> simp

theorem resultLength_of_writesNothing {i : Instr} {s : State} {l : Latched} (h : Spec.writesNothing i = true) :
    Spec.resultLength s l i = 0 := by
  cases i <;> first | rfl | cases h

/-- The destination range does not depend on what the host has still to do. -/
@[simp] theorem destRange_script (s : State) (rest : List HostOp) (l : Latched) :
    destRange { s with script := rest } l = destRange s l := by
  unfold destRange
  cases decode l.cmd with
  | error _ => rfl
  | ok i => cases i <;> rfl

end Sys2Proof.Machine
end

