-- ==== Sys2Proof/Laws/Decode.lean ====
section
/-! SUPPORT. The fields of a command word as arithmetic on its number, and the word as the sum of its fields. -/

namespace Sys2Proof

theorem toNat_opcField (v : Word) : (opcField v).toNat = v.toNat % 256 := by
  simp [opcField, BitVec.extractLsb'_toNat]

theorem toNat_immField (v : Word) : (immField v).toNat = v.toNat / 256 % 256 := by
  simp [immField, BitVec.extractLsb'_toNat, Nat.shiftRight_eq_div_pow]

theorem toNat_rsvField (v : Word) : (rsvField v).toNat = v.toNat / 131072 := by
  have := v.isLt
  simp [rsvField, BitVec.extractLsb'_toNat, Nat.shiftRight_eq_div_pow]
  omega

theorem hField_eq (v : Word) : hField v = decide (v.toNat / 65536 % 2 = 1) := by
  simp [hField, BitVec.getLsbD, Nat.testBit_eq_decide_div_mod_eq]

theorem toNat_commandWord {opc imm h : Nat} (ho : opc < 256) (hi : imm < 256) (hh : h < 2) :
    (commandWord opc imm h).toNat = opc + 256 * imm + 65536 * h := by
  have e1 : opc ||| imm <<< 8 = opc + 256 * imm := by
    rw [Nat.or_comm, ← Nat.shiftLeft_add_eq_or_of_lt (by omega), Nat.shiftLeft_eq]; omega
  have e2 : (opc + 256 * imm) ||| h <<< 16 = opc + 256 * imm + 65536 * h := by
    rw [Nat.or_comm, ← Nat.shiftLeft_add_eq_or_of_lt (by omega), Nat.shiftLeft_eq]; omega
  simp only [commandWord, e1, e2, BitVec.toNat_ofNat]
  omega

/-- Decoding a word made of fields is decoding the fields. -/
theorem decode_commandWord {opc imm h : Nat} (ho : opc < 256) (hi : imm < 256) (hh : h < 2) :
    decode (commandWord opc imm h) = decodeFields opc (BitVec.ofNat 8 imm) (decide (h = 1)) := by
  have hv := toNat_commandWord ho hi hh
  have h1 : rsvField (commandWord opc imm h) = 0 := by
    apply BitVec.eq_of_toNat_eq; rw [toNat_rsvField]; simp; omega
  have h2 : (opcField (commandWord opc imm h)).toNat = opc := by rw [toNat_opcField]; omega
  have h3 : immField (commandWord opc imm h) = BitVec.ofNat 8 imm := by
    apply BitVec.eq_of_toNat_eq; rw [toNat_immField]; simp; omega
  have h4 : hField (commandWord opc imm h) = decide (h = 1) := by
    rw [hField_eq]; simp only [decide_eq_decide]; omega
  rw [decode, h1, h2, h3, h4, if_neg (by simp)]

/-- A word whose RSV is 0 is made of its three other fields. -/
theorem eq_commandWord {v : Word} (h : rsvField v = 0) :
    v = commandWord (opcField v).toNat (immField v).toNat (hField v).toNat := by
  have hr : v.toNat / 131072 = 0 := by rw [← toNat_rsvField, h]; rfl
  apply BitVec.eq_of_toNat_eq
  rw [toNat_commandWord (BitVec.isLt _) (BitVec.isLt _) (Bool.toNat_lt _), toNat_opcField, toNat_immField, hField_eq]
  by_cases hb : v.toNat / 65536 % 2 = 1 <;> simp [hb] <;> omega

end Sys2Proof
end

