-- ==== Sys2Proof/Laws/PerInstr.lean ====
section
/-! SUPPORT. One family of statements with one lemma for each command: the fields of the word that the encoder writes
(30_encoding.md R81, R84, R85). -/

namespace Sys2Proof.Laws

/-- OPC of a command (R85). -/
def opcodeOf : Instr → Nat
  | .nop => 0
  | .frame _ => 1
  | .literal _ => 2
  | .literalNohdr => 2
  | .mdcWrap => 3
  | .cfbEnc => 4
  | .crcInit => 5
  | .crcUpdate => 6
  | .radix64 => 7
  | .armor => 8

/-- IMM8 of a command (R82). -/
def immOf : Instr → Nat
  | .frame tag => tag
  | .literal tag => tag
  | .nop => 0
  | .literalNohdr => 0
  | .mdcWrap => 0
  | .cfbEnc => 0
  | .crcInit => 0
  | .crcUpdate => 0
  | .radix64 => 0
  | .armor => 0

/-- The encoder writes OPC and IMM8 of the command, H only for LITERAL.NOHDR, and RSV = 0. -/
def EncodeFields.Statement (i : Instr) : Prop :=
  i.wellFormed = true →
    (opcField (encode i)).toNat = opcodeOf i ∧ (immField (encode i)).toNat = immOf i ∧
      hField (encode i) = (i == .literalNohdr) ∧ rsvField (encode i) = 0

theorem EncodeFields.nop : EncodeFields.Statement .nop := by unfold EncodeFields.Statement; decide
theorem EncodeFields.literalNohdr : EncodeFields.Statement .literalNohdr := by unfold EncodeFields.Statement; decide
theorem EncodeFields.mdcWrap : EncodeFields.Statement .mdcWrap := by unfold EncodeFields.Statement; decide
theorem EncodeFields.cfbEnc : EncodeFields.Statement .cfbEnc := by unfold EncodeFields.Statement; decide
theorem EncodeFields.crcInit : EncodeFields.Statement .crcInit := by unfold EncodeFields.Statement; decide
theorem EncodeFields.crcUpdate : EncodeFields.Statement .crcUpdate := by unfold EncodeFields.Statement; decide
theorem EncodeFields.radix64 : EncodeFields.Statement .radix64 := by unfold EncodeFields.Statement; decide
theorem EncodeFields.armor : EncodeFields.Statement .armor := by unfold EncodeFields.Statement; decide

/-- The fields of a word with a tag. -/
theorem fields_commandWord {opc tag : Nat} (ho : opc < 256) (ht : tag < 256) :
    (opcField (commandWord opc tag 0)).toNat = opc ∧ (immField (commandWord opc tag 0)).toNat = tag ∧
      hField (commandWord opc tag 0) = false ∧ rsvField (commandWord opc tag 0) = 0 := by
  have hv := toNat_commandWord ho ht (h := 0) (by omega)
  refine ⟨by rw [toNat_opcField]; omega, by rw [toNat_immField]; omega, ?_, ?_⟩
  · rw [hField_eq, decide_eq_false_iff_not]; omega
  · apply BitVec.eq_of_toNat_eq; rw [toNat_rsvField]; simp; omega

theorem EncodeFields.frame (tag : Nat) : EncodeFields.Statement (.frame tag) := fun h =>
  fields_commandWord (by omega) (of_decide_eq_true h)

theorem EncodeFields.literal (tag : Nat) : EncodeFields.Statement (.literal tag) := fun h =>
  fields_commandWord (by omega) (of_decide_eq_true h)

end Sys2Proof.Laws
end

