-- ==== Sys2Proof/Tests/Slice0.lean ====
section
/-! SUPPORT. The model's own tests. Expected results come from 95_test_vectors.md (the row is named) or from the rule named;
the cipher and the digest are open, so vectors that need AES or SHA-1 are not used. The `witness_` theorems show states and
operands that meet the hypotheses of the statements. -/

set_option Elab.async false

namespace Sys2Proof.Tests

open Sys2Proof Sys2Proof.Machine

/-! ## Helpers -/

/-- The bytes 00 01 … 0F. -/
def ramp : Block := #v[0x00, 0x01, 0x02, 0x03, 0x04, 0x05, 0x06, 0x07, 0x08, 0x09, 0x0A, 0x0B, 0x0C, 0x0D, 0x0E, 0x0F]

/-- The same bytes as four register words. -/
def rampWords : Vector Word 4 := #v[0x00010203, 0x04050607, 0x08090A0B, 0x0C0D0E0F]

/-- `P_BUF_SIZE = 4096`, no auxiliary draw, `P_MDC_TAG = D3 14`. -/
def params : Params := ⟨4096, false, (0xD3, 0x14)⟩

/-- An idle PGE with KEY and PFX written and a random source that answers. -/
def idle : State := { State.reset with params := params, key := rampWords, pfx := rampWords, rng := some ramp }

/-- The idle PGE with a text at SRC, and DST. -/
def ready (text : List Byte) (src dst : Nat) : State :=
  { idle with
    buf := Memory.putBytes [] src text
    srcAddr := BitVec.ofNat 32 src
    srcLen := BitVec.ofNat 32 text.length
    dstAddr := BitVec.ofNat 32 dst }

/-- The state after the engine has run one command word on a state. -/
def ran (s : State) (w : Nat) : State :=
  match step (s.withFetchWord 32 w) with
  | .next t => t
  | .fault _ => s
  | .refused _ => s

/-- STATUS, RES_LEN and ERRINFO. -/
def report (s : State) : Word × Word × Word := (s.statusWord, s.resLen, s.errInfo)

/-- The bytes of BUF from an address. -/
def at_ (s : State) (a n : Nat) : List Byte := s.memRead ⟨a, n⟩

/-- A host access on the idle PGE, and what its step leaves. -/
def host (s : State) (op : HostOp) : State :=
  match step { s with script := [op] } with
  | .next t => t
  | .fault _ => s
  | .refused _ => s

/-! ## Well-formedness: the tags that have no word are refused (R91) -/

theorem test_wellFormed_refuses_frame_256 : (Instr.frame 256).wellFormed = false := by decide
theorem test_wellFormed_refuses_literal_256 : (Instr.literal 256).wellFormed = false := by decide
theorem test_wellFormed_takes_255 : (Instr.frame 255).wellFormed = true ∧ (Instr.literal 255).wellFormed = true := by decide
theorem test_assemble_refuses_256 : assemble (.literal 256) = none := by decide

/-! ## Decoding: section 2.8, each word written out from the fields of R81 -/

theorem test_decode_nop : decode 0b000000000000000_0_00000000_00000000 = .ok .nop := by decide
theorem test_decode_frame_ac : decode 0b000000000000000_0_10101100_00000001 = .ok (.frame 0xAC) := by decide
theorem test_decode_frame_00 : decode 0b000000000000000_0_00000000_00000001 = .ok (.frame 0) := by decide
theorem test_decode_literal_ac : decode 0b000000000000000_0_10101100_00000010 = .ok (.literal 0xAC) := by decide
theorem test_decode_literal_01 : decode 0b000000000000000_0_00000001_00000010 = .ok (.literal 1) := by decide
theorem test_decode_literalNohdr : decode 0b000000000000000_1_00000000_00000010 = .ok .literalNohdr := by decide
theorem test_decode_mdcWrap : decode 0b000000000000000_0_00000000_00000011 = .ok .mdcWrap := by decide
theorem test_decode_cfbEnc : decode 0b000000000000000_0_00000000_00000100 = .ok .cfbEnc := by decide
theorem test_decode_crcInit : decode 0b000000000000000_0_00000000_00000101 = .ok .crcInit := by decide
theorem test_decode_crcUpdate : decode 0b000000000000000_0_00000000_00000110 = .ok .crcUpdate := by decide
theorem test_decode_radix64 : decode 0b000000000000000_0_00000000_00000111 = .ok .radix64 := by decide
theorem test_decode_armor : decode 0b000000000000000_0_00000000_00001000 = .ok .armor := by decide
theorem test_decode_frame_h : decode 0x00010001 = .error .frameWithH := by decide
theorem test_decode_nohdr_tag : decode 0x0001AC02 = .error .nohdrWithTag := by decide
theorem test_decode_crcInit_imm : decode 0x00000105 = .error .operandBits := by decide
theorem test_decode_cfbEnc_h : decode 0x00010004 = .error .operandBits := by decide
theorem test_decode_rsv_17 : decode 0x00020000 = .error .reservedBits := by decide
theorem test_decode_rsv_31 : decode 0x80000004 = .error .reservedBits := by decide
theorem test_decode_09 : decode 0x00000009 = .error .unassignedOpcode := by decide
theorem test_decode_ff : decode 0x000000FF = .error .unassignedOpcode := by decide

/-! ## The commands -/

/-- R230's example. -/
theorem test_nop : report (ran idle 0x00000000) = (0x00000002, 0, 0) := by decide +kernel

/-- F4. -/
theorem test_frame_256 :
    let t := ran { ready [] 0 0x100 with srcLen := 256 } 0x0000AC01
    at_ t 0x100 3 = [0xAD, 0x01, 0x00] ∧ report t = (0x00010002, 3, 0) := by decide +kernel

/-- F9: the tag sum wraps. -/
theorem test_frame_wraps :
    at_ (ran { ready [] 0 0x100 with srcLen := 65536 } 0x0000FE01) 0x100 5 = [0x00, 0x00, 0x01, 0x00, 0x00] := by
  decide +kernel

/-- L3. -/
theorem test_literal_lf :
    let t := ran (ready [0x61, 0x0A, 0x62] 0 0x100) 0x0000AC02
    at_ t 0x100 12 = [0xAC, 0x0A, 0x74, 0, 0, 0, 0, 0, 0x61, 0x0D, 0x0A, 0x62] ∧ report t = (0x00020002, 12, 0) := by
  decide +kernel

/-- L15: 125 LF bytes make the header three bytes wide. -/
theorem test_literal_wide :
    frameBytes 0xAC (literalBody (List.replicate 125 0x0A)).length = [0xAD, 0x01, 0x00] := by decide +kernel

/-- L4: a text with a CR LF pair is copied, its lone LF too. -/
theorem test_literalNohdr_pair :
    let t := ran (ready [0x61, 0x0D, 0x0A, 0x62, 0x0A] 0 0x100) 0x00010002
    at_ t 0x100 11 = [0x74, 0, 0, 0, 0, 0, 0x61, 0x0D, 0x0A, 0x62, 0x0A] ∧ report t = (0x00020002, 11, 0) := by
  decide +kernel

/-- L9: LF CR is no pair. -/
theorem test_literalNohdr_lf_cr :
    at_ (ran (ready [0x78, 0x0A, 0x0D] 0 0x100) 0x00010002) 0x100 10 = [0x74, 0, 0, 0, 0, 0, 0x78, 0x0D, 0x0A, 0x0D] := by
  decide +kernel

/-- M3 up to the digest, which is open: prefix, echo, packet, sentinel. -/
theorem test_mdcHashed :
    mdcHashed (0xD3, 0x14) (blockOfWords #v[0xA5A5A5A5, 0xA5A5A5A5, 0xA5A5A5A5, 0xA5A51234]) [0x01] =
      List.replicate 14 0xA5 ++ [0x12, 0x34, 0x12, 0x34, 0x01, 0xD3, 0x14] := by decide +kernel

/-- P5: a draw that fails. -/
theorem test_mdcWrap_random :
    report (ran { ready [0x01] 0 0x100 with rng := none } 3) = (0x00030504, 0, 16) := by decide +kernel

/-- T6, with E(K, X) = X xor K. -/
theorem test_cfb_toy_20 :
    cfbEncrypt (xorBlock ramp) (List.replicate 20 0xFF) =
      [0xFF, 0xFE, 0xFD, 0xFC, 0xFB, 0xFA, 0xF9, 0xF8, 0xF7, 0xF6, 0xF5, 0xF4, 0xF3, 0xF2, 0xF1, 0xF0, 0, 0, 0, 0] := by
  decide +kernel

/-- n = 0 at the end of BUF (2.4, error vectors). -/
theorem test_cfbEnc_empty :
    let t := ran { ready [] 0 4096 with blkcnt := 7 } 4
    report t = (0x00040002, 0, 0) ∧ t.blkcnt = 0 := by decide +kernel

/-- R180's example. -/
theorem test_crcInit :
    let t := ran { idle with crc := 5 } 5
    t.crc = 0xB704CE ∧ report t = (0x00050002, 0, 0) := by decide +kernel

/-- C6. -/
theorem test_crcUpdate :
    (ran (ready [0x31, 0x32, 0x33, 0x34, 0x35, 0x36, 0x37, 0x38, 0x39] 0 0) 6).crc = 0x21CF02 := by decide +kernel

/-- C8. -/
theorem test_crc24 : crc24 [0xAC, 0x00] = 0xBF53E3 := by decide +kernel

/-- B5. -/
theorem test_radix64 :
    let t := ran (ready (ascii "foob") 0 0x100) 7
    at_ t 0x100 9 = ascii "Zm9vYg==" ++ [0x0A] ∧ report t = (0x00070002, 9, 0) := by decide +kernel

/-- B10: 49 bytes make a second line. -/
theorem test_radix64_wrap :
    at_ (ran (ready ((List.range 49).map (BitVec.ofNat 8)) 0 0x100) 7) 0x140 6 = [0x0A] ++ ascii "MA==" ++ [0x0A] := by
  decide +kernel

/-- AR2. -/
theorem test_armor :
    let t := ran (ready [0xAC, 0x00] 0 0x100) 8
    at_ t 0x100 101 =
      ascii "-----BEGIN PGP MESSAGE-----" ++ [0x0A] ++ ascii "Version: VerySimple PHP-GPG v1.6.1" ++ [0x0A, 0x0A] ++
        ascii "rAA=" ++ [0x0A] ++ ascii "=v1Pj" ++ [0x0A] ++ ascii "-----END PGP MESSAGE-----" ++ [0x0A] ∧
      report t = (0x00080002, 101, 0) ∧ t.crc = 0xBF53E3 := by decide +kernel

/-- AR3: the explicit empty override keeps the blank line. -/
theorem test_armor_suppressed :
    let t := ran { ready [0xAC, 0x00] 0 0x100 with ctrl := 4 } 8
    at_ t 0x11C 6 = [0x0A] ++ ascii "rAA=" ++ [0x0A] ∧ t.resLen = 66 := by decide +kernel

/-! ## Errors: the error vectors of section 2 -/

theorem test_range_destination :
    report (ran { ready [] 0 4094 with srcLen := 256 } 0x0000AC01) = (0x00010204, 0, 0x00000FFE) := by decide +kernel
theorem test_overlap : report (ran (ready [0x61, 0x0A, 0x62] 0 2) 0x0000AC02) = (0x00020304, 0, 2) := by decide +kernel
theorem test_illegal : report (ran idle 0x00000105) = (0x00050104, 0, 0x00000105) := by decide +kernel
theorem test_too_large :
    report (ran { idle with params := ⟨0xFFFFFFFF, false, (0, 0)⟩, ctrl := 2, srcLen := 0xFFFFFFD8 } 3) =
      (0x00030404, 0, 0xFFFFFFFF) := by decide +kernel
theorem test_range_aux :
    report (ran { ready [] 0 0 with ctrl := 4, auxAddr := 4090, auxLen := 10 } 8) = (0x00080204, 0, 4090) := by
  decide +kernel

/-! ## The host port: section 2.9 and R233 to R235 -/

/-- RP2. -/
theorem test_key_reads_zero : (host idle (.regRead 0x30 4)).readData = some (.word 0) := by decide +kernel

/-- RP4. -/
theorem test_ctrl_three_bits : (host idle (.regWrite 0x08 4 0xFFFFFFFF)).ctrl = 7 := by decide +kernel

/-- RP10: ERR and ERRCODE go, ERRINFO stays. -/
theorem test_status_w1c :
    report (host { idle with err := true, errcode := 1, lastopc := 9, errInfo := 9 } (.regWrite 0x04 4 0x00000004)) =
      (0x00090000, 0, 0x00000009) := by decide +kernel

/-- R37: accept, even of an illegal word. -/
theorem test_accept : (host { idle with done := true } (.regWrite 0x00 4 0x00000009)).statusWord = 0x00090001 := by
  decide +kernel

/-- R24 (b): half a word. -/
theorem test_refused : (host idle (.regRead 0x04 2)).refused = true := by decide +kernel

/-- R73: a write into the source range of the running command. -/
theorem test_hostRace :
    let s := { (ready [0x61] 0 0x100).start 0x0000AC02 5 with script := [HostOp.bufWrite 0 0x62] }
    (match step s with
      | .next t => t.faulted && t.readByte 0 == 0x62
      | .fault _ => false
      | .refused _ => false) = true := by decide +kernel

/-- R235: reset clears both marks. -/
theorem test_reset_clears_marks : (host { idle with faulted := true, refused := true } .reset).clean = true := by
  decide +kernel

/-- R94: the lines of a script. -/
theorem test_expand_run :
    (Line.run (.literal 0xAC)).expand = some [.regWrite 0x00 4 0x0000AC02, .wait] := by decide +kernel
theorem test_expand_key :
    (Line.key ramp).expand = some [.regWrite 0x30 4 0x00010203, .regWrite 0x34 4 0x04050607,
      .regWrite 0x38 4 0x08090A0B, .regWrite 0x3C 4 0x0C0D0E0F] := by decide +kernel
theorem test_parse_src : parseLine "src 0x100, 12".toList = some (.src 0x100 12) := by decide +kernel
theorem test_parse_wr : parseLine "WR Key3, 0x10".toList = some (.wr (.key 3) 0x10) := by decide +kernel
theorem test_parse_bw : parseLine "bw 0x000, 41 0A".toList = some (.bw 0 [0x41, 0x0A]) := by decide +kernel

/-- Log entry 18: a `bw` line with no byte, and U+016E in a word and in a quoted text. -/
theorem test_parse_refuses :
    parseLine "bw 0x000".toList = none ∧ parseLine [Char.ofNat 0x16E, 'o', 'p'] = none ∧
      parseLine ("bw 0, \"".toList ++ [Char.ofNat 0x16E] ++ "\"".toList) = none := by decide +kernel

/-! ## Witnesses: states and operands that meet the hypotheses of the statements -/

/-- The engine, started on a word by `State.start`. -/
def runOf (s : State) (w : Word) (wait : Nat) : Running := ⟨latch s w, destRange s (latch s w), wait⟩

theorem start_eng (s : State) (w : Word) (wait : Nat) : (s.start w wait).eng = .busy (runOf s w wait) := rfl

/-- One command of text, waiting for three host steps. -/
def literalRunning : State := { (ready [0x61] 0 0x100).start 0x0000AC02 3 with script := [.wait] }

/-- The idle PGE whose host has one access to make. -/
def asking (op : HostOp) : State := { idle with script := [op] }

/-- A busy PGE whose host has one access to make. -/
def busyAsking (op : HostOp) : State := { literalRunning with script := [op] }

theorem asking_turn (op : HostOp) : Spec.hostTurn (asking op) op [] := ⟨rfl, fun _ h => by cases h⟩

theorem busyAsking_turn (op : HostOp) : Spec.hostTurn (busyAsking op) op [] := ⟨rfl, fun _ h => by cases h; decide⟩

theorem witness_DecodeEncodeRoundTrip : (Instr.literal 255).wellFormed = true := by decide

theorem witness_EncodeDecodeRoundTrip : decode 0x0000FF01 = .ok (.frame 255) := by decide

theorem witness_IllegalWordsEndWithError :
    ∀ c ∈ [((0x000000FF : Word), Illegal.unassignedOpcode), (0x00020000, .reservedBits), (0x00000108, .operandBits),
        (0x00010001, .frameWithH), (0x00010102, .nohdrWithTag)],
      (idle.start c.1 0).eng = .busy (runOf idle c.1 0) ∧ (runOf idle c.1 0).wait = 0 ∧
        decode (runOf idle c.1 0).lat.cmd = .error c.2 := by
  intro c hc
  refine ⟨rfl, rfl, ?_⟩
  revert c
  decide

theorem witness_StepRunsLatchedCommand :
    (idle.start 0x00000005 0).eng = .busy (runOf idle 5 0) ∧ (runOf idle 5 0).wait = 0 ∧
      decode (runOf idle 5 0).lat.cmd = .ok .crcInit := ⟨rfl, rfl, by decide⟩

theorem witness_StepRunsLatchedCommand_quiet_host :
    (idle.start 0x00000005 9).script = [] ∧ (runOf idle 5 9).wait ≠ 0 := ⟨rfl, by decide⟩

theorem witness_FetchedWordRuns : (Instr.frame 255).wellFormed = true := by decide

theorem literalRunning_inv : literalRunning.Inv := by
  refine ⟨⟨by decide, by decide, by decide, by decide⟩, ⟨rfl, rfl, by decide +kernel, .inr (by decide +kernel)⟩,
    by decide +kernel, by decide +kernel, by decide +kernel⟩

theorem witness_AcceptedCommandEnds :
    literalRunning.Inv ∧ literalRunning.eng = .busy (runOf (ready [0x61] 0 0x100) 0x0000AC02 3) :=
  ⟨literalRunning_inv, rfl⟩

theorem witness_StepKeepsInvariant : literalRunning.Inv ∧ ∃ t, step literalRunning = .next t :=
  ⟨literalRunning_inv, _, rfl⟩

theorem witness_NopCompletes : (idle.start 0 0).eng = .busy (runOf idle 0 0) := rfl

/-- FRAME at DST, ready to complete. -/
def frameAt (len dst : Nat) : State := { ready [] 0 dst with srcLen := BitVec.ofNat 32 len }

theorem witness_FrameWritesHeader_short : (frameAt 255 4094).srcLen.toNat < 256 ∧ Spec.fits (frameAt 255 4094) ⟨4094, 2⟩ ∧
    ((frameAt 255 4094).start 0x0000FF01 0).eng = .busy (runOf (frameAt 255 4094) 0x0000FF01 0) := by
  refine ⟨?_, ?_, rfl⟩ <;> decide +kernel

theorem witness_FrameWritesHeader_two : 256 ≤ (frameAt 256 4093).srcLen.toNat ∧ (frameAt 65535 4093).srcLen.toNat < 65536 ∧
    Spec.fits (frameAt 65535 4093) ⟨4093, 3⟩ := by
  refine ⟨?_, ?_, ?_⟩ <;> decide +kernel

theorem witness_FrameWritesHeader_four : 65536 ≤ (frameAt 65536 4091).srcLen.toNat ∧
    Spec.fits (frameAt 4294967295 4091) ⟨4091, 5⟩ := by
  refine ⟨?_, ?_⟩ <;> decide +kernel

theorem witness_FrameHeaderReparses : 4294967295 ≤ 4294967295 := Nat.le_refl _

/-- LITERAL over 3 bytes, its 12 bytes at the end of BUF. -/
def literalState : State := ready [0x61, 0x0A, 0x62] 0 4084

theorem witness_LiteralWritesPacket :
    let l := latch literalState 0x0000AC02
    let body := [0x74, 0x00, 0x00, 0x00, 0x00, 0x00] ++ normalizeText (literalState.memRead l.src)
    let out := frameBytes 0xAC body.length ++ body
    (literalState.start 0x0000AC02 0).eng = .busy (runOf literalState 0x0000AC02 0) ∧
      Spec.fits literalState l.src ∧ out.length ≤ 4294967295 ∧ Spec.fits literalState ⟨l.dstAddr.toNat, out.length⟩ ∧
      Spec.apart l.src ⟨l.dstAddr.toNat, out.length⟩ := by
  refine ⟨rfl, ?_, ?_, ?_, ?_⟩ <;> decide +kernel

theorem witness_LiteralNohdrWritesBody :
    let l := latch (ready [] 4096 0) 0x00010002
    let body := [0x74, 0x00, 0x00, 0x00, 0x00, 0x00] ++ normalizeText ((ready [] 4096 0).memRead l.src)
    Spec.fits (ready [] 4096 0) l.src ∧ body.length ≤ 4294967295 ∧
      Spec.fits (ready [] 4096 0) ⟨l.dstAddr.toNat, body.length⟩ ∧ Spec.apart l.src ⟨l.dstAddr.toNat, body.length⟩ := by
  refine ⟨?_, ?_, ?_, ?_⟩ <;> decide +kernel

theorem witness_NormalizeRewritesLoneLf_pair : Spec.hasPair [0x0D, 0x0D, 0x0A] := ⟨1, by decide, rfl, rfl⟩

theorem witness_NormalizeRewritesLoneLf_lone : ¬ Spec.hasPair [0x0A, 0x0D] := by
  rintro ⟨i, hi, h1, h2⟩
  simp only [List.length_cons, List.length_nil] at hi
  have : i = 0 ∨ i = 1 := by omega
  rcases this with rfl | rfl
  · cases h1
  · cases h2

/-- A command that ends with success, on a state whose DONE is 0. -/
abbrev endsOk (s : State) (w : Word) (i : Instr) : Prop :=
  (s.start w 0).eng = .busy (runOf s w 0) ∧ (s.start w 0).done = false ∧
    ∃ t, exec i (s.start w 0) = .next t ∧ t.done = true

theorem witness_LiteralPacketLength_framed : endsOk (ready [0x0A] 0 0x100) 0x0000AC02 (.literal 0xAC) :=
  ⟨rfl, rfl, _, rfl, by decide +kernel⟩

theorem witness_LiteralPacketLength_bare : endsOk (ready [0x0A] 0 0x100) 0x00010002 .literalNohdr :=
  ⟨rfl, rfl, _, rfl, by decide +kernel⟩

/-- MDC_WRAP over one byte, its 41 bytes at the end of BUF. -/
def mdcState : State := { ready [0x01] 0 4055 with ctrl := 2 }

theorem witness_MdcWrapFixedPrefix :
    let l := latch mdcState 3
    (mdcState.start 3 0).eng = .busy (runOf mdcState 3 0) ∧ l.pfxsel = true ∧ Spec.fits mdcState l.src ∧
      l.srcLen.toNat + 40 ≤ 4294967295 ∧ Spec.fits mdcState ⟨l.dstAddr.toNat, l.srcLen.toNat + 40⟩ ∧
      Spec.apart l.src ⟨l.dstAddr.toNat, l.srcLen.toNat + 40⟩ := by
  refine ⟨rfl, ?_, ?_, ?_, ?_, ?_⟩ <;> decide +kernel

theorem witness_MdcWrapDrawnPrefix :
    let s := { mdcState with ctrl := 0 }
    let l := latch s 3
    (s.start 3 0).eng = .busy (runOf s 3 0) ∧ l.pfxsel = false ∧ Spec.fits s l.src ∧ l.srcLen.toNat + 40 ≤ 4294967295 ∧
      Spec.fits s ⟨l.dstAddr.toNat, l.srcLen.toNat + 40⟩ ∧ Spec.apart l.src ⟨l.dstAddr.toNat, l.srcLen.toNat + 40⟩ ∧
      s.rng = some ramp ∧ { s with rng := none }.rng = none := by
  refine ⟨rfl, ?_, ?_, ?_, ?_, ?_, rfl, rfl⟩ <;> decide +kernel

theorem witness_MdcDigestVerifies : endsOk mdcState 3 .mdcWrap := ⟨rfl, rfl, _, rfl, by decide +kernel⟩

/-- CFB_ENC over 17 bytes, its output directly after them at the end of BUF; the draw is made or not. -/
def cfbState (aux : Bool) (rng : Option Block) : State :=
  { ready (List.replicate 17 0) 4062 4079 with params := { params with auxDraw := aux }, rng := rng }

theorem witness_CfbEncCompletes :
    let s := cfbState true (some ramp)
    let l := latch s 4
    (s.start 4 0).eng = .busy (runOf s 4 0) ∧ Spec.fits s l.src ∧ Spec.fits s ⟨l.dstAddr.toNat, l.srcLen.toNat⟩ ∧
      Spec.apart l.src ⟨l.dstAddr.toNat, l.srcLen.toNat⟩ ∧ s.params.auxDraw = true ∧ s.rng ≠ none ∧
      (cfbState false none).params.auxDraw = false ∧ (cfbState true none).rng = none := by
  refine ⟨rfl, ?_, ?_, ?_, rfl, ?_, rfl, rfl⟩ <;> decide +kernel

theorem witness_CfbBlockStep :
    ([0xAA, 0xBB] : List Byte)[16 * 0 + (1 : Fin 16).val]? = some 0xBB ∧
      (List.replicate 17 (0xCC : Byte))[16 * 1 + (0 : Fin 16).val]? = some 0xCC := by decide

theorem witness_CfbPrefixLaw : 17 ≤ (List.replicate 17 (0 : Byte)).length := by decide

theorem witness_CfbEngineRefinesCommand :
    ((cfbState true none).start 4 0).eng = .busy (runOf (cfbState true none) 4 0) := rfl

theorem witness_CrcInitCompletes : (idle.start 5 0).eng = .busy (runOf idle 5 0) := rfl

theorem witness_CrcUpdateCompletes :
    let s := ready [0x61] 4095 0
    (s.start 6 0).eng = .busy (runOf s 6 0) ∧ Spec.fits (s.start 6 0) (runOf s 6 0).lat.src := by
  refine ⟨rfl, ?_⟩; decide +kernel

theorem witness_CrcUpdatesCompose :
    let s := ready [0x61] 4095 0
    let s₁ := s.start 6 0
    let run₂ : Running := { runOf s 6 0 with lat := { latch s 6 with srcAddr := 0, srcLen := 2 } }
    ∃ t u, s₁.eng = .busy (runOf s 6 0) ∧ Spec.fits s₁ (runOf s 6 0).lat.src ∧ exec .crcUpdate s₁ = .next t ∧
      Spec.fits s₁ run₂.lat.src ∧
      exec .crcUpdate { t with busy := true, done := false, eng := .busy run₂ } = .next u ∧ s₁.crc = crcInitial := by
  refine ⟨_, _, rfl, ?_, rfl, ?_, rfl, rfl⟩ <;> decide +kernel

theorem witness_CrcStepArithmetic : 2 ^ 24 - 1 < 2 ^ 24 ∧ 255 < 256 := by decide

theorem witness_Radix64Completes :
    let s := ready [0x66] 0 4091
    let l := latch s 7
    let out := wrap64 (b64 (s.memRead l.src))
    (s.start 7 0).eng = .busy (runOf s 7 0) ∧ Spec.fits s l.src ∧ out.length ≤ 4294967295 ∧
      Spec.fits s ⟨l.dstAddr.toNat, out.length⟩ ∧ Spec.apart l.src ⟨l.dstAddr.toNat, out.length⟩ := by
  refine ⟨rfl, ?_, ?_, ?_, ?_⟩ <;> decide +kernel

theorem witness_Radix64LengthAndLimit_ends : endsOk (ready [0x66] 0 4091) 7 .radix64 := ⟨rfl, rfl, _, rfl, by decide +kernel⟩

theorem witness_Radix64LengthAndLimit_large :
    ∀ n ∈ [3171668154, 3171668155],
      let s := { idle with params := ⟨0xFFFFFFFF, false, (0, 0)⟩, srcLen := BitVec.ofNat 32 n }
      (s.start 7 0).done = false ∧ Spec.fits (s.start 7 0) (runOf s 7 0).lat.src ∧
        (runOf s 7 0).lat.srcLen.toNat = n := by decide +kernel

theorem witness_RadixCharacters : 3 * 1 < [(1 : Byte), 2, 3, 4].length ∧ 3 < 4 := by decide

theorem witness_WrapLayout : 64 < (List.replicate 65 (0x41 : Byte)).length ∧ 1 < Spec.ceil 65 64 := by decide

/-- ARMOR over two bytes with a ten-byte override, its 77 bytes at the end of BUF. -/
def armorState : State :=
  { ready (ascii "Comment: x" ++ [0xAC, 0x00]) 0 4019 with
    ctrl := 4, srcAddr := 10, srcLen := 2, auxAddr := 0, auxLen := 10 }

theorem witness_ArmorCompletes :
    let s := armorState
    let l := latch s 8
    let text := armorText (versionLine l.versel (s.memRead l.aux)) (s.memRead l.src)
    (s.start 8 0).eng = .busy (runOf s 8 0) ∧ l.versel = true ∧ Spec.fits s l.src ∧ Spec.fits s l.aux ∧
      text.length ≤ 4294967295 ∧ Spec.fits s ⟨l.dstAddr.toNat, text.length⟩ ∧
      Spec.apart l.src ⟨l.dstAddr.toNat, text.length⟩ ∧ Spec.apart l.aux ⟨l.dstAddr.toNat, text.length⟩ := by
  refine ⟨rfl, ?_, ?_, ?_, ?_, ?_, ?_, ?_⟩ <;> decide +kernel

theorem armor_ends : endsOk armorState 8 .armor := ⟨rfl, rfl, _, rfl, by decide +kernel⟩

theorem witness_ArmorLength : endsOk armorState 8 .armor := armor_ends

theorem witness_ArmorCharacterSet : endsOk armorState 8 .armor := armor_ends

theorem witness_ArmorCrcSideEffect : endsOk armorState 8 .armor := armor_ends

theorem witness_ArmorCrcSideEffect_error :
    let s := { armorState with auxAddr := 4087 }
    (s.start 8 0).done = false ∧ ∃ t, exec .armor (s.start 8 0) = .next t ∧ t.done = false :=
  ⟨rfl, _, rfl, by decide +kernel⟩

theorem witness_FirstFailingCheckReported_illegal :
    (idle.start 0x00000105 0).eng = .busy (runOf idle 0x00000105 0) ∧ decode 0x00000105 = .error .operandBits :=
  ⟨rfl, by decide⟩

theorem witness_FirstFailingCheckReported_source :
    ¬ Spec.srcOk (.literal 0xAC) idle { latch idle 0x0000AC02 with srcAddr := 4000, srcLen := 200 } := by decide +kernel

theorem witness_FirstFailingCheckReported_aux :
    let l := { latch armorState 8 with auxAddr := 4087 }
    Spec.srcOk .armor armorState l ∧ ¬ Spec.auxOk .armor armorState l := by decide +kernel

theorem witness_FirstFailingCheckReported_length :
    let s := { idle with params := ⟨0xFFFFFFFF, false, (0, 0)⟩, srcLen := 0xFFFFFFD8 }
    Spec.srcOk .mdcWrap s (latch s 3) ∧ Spec.auxOk .mdcWrap s (latch s 3) ∧ ¬ Spec.lengthOk .mdcWrap s (latch s 3) := by
  decide +kernel

theorem witness_FirstFailingCheckReported_destination :
    let s := frameAt 256 4094
    let l := latch s 0x0000AC01
    let i := Instr.frame 0xAC
    Spec.srcOk i s l ∧ Spec.auxOk i s l ∧ Spec.lengthOk i s l ∧ ¬ Spec.dstOk i s l := by decide +kernel

theorem witness_FirstFailingCheckReported_overlap :
    let s := { armorState with dstAddr := 9 }
    let l := latch s 8
    let i := Instr.armor
    Spec.srcOk i s l ∧ Spec.auxOk i s l ∧ Spec.lengthOk i s l ∧ Spec.dstOk i s l ∧
      ¬ (Spec.srcApart i s l ∧ Spec.auxApart i s l) := by decide +kernel

theorem witness_FirstFailingCheckReported_random :
    let s := cfbState true none
    Spec.checksPass .cfbEnc s (latch s 4) ∧ Spec.draws .cfbEnc s (latch s 4) = true ∧ s.rng = none := by
  refine ⟨?_, ?_, rfl⟩ <;> decide +kernel

theorem witness_FirstFailingCheckReported_passes :
    let s := cfbState true (some ramp)
    (s.start 4 0).eng = .busy (runOf s 4 0) ∧ Spec.checksPass .cfbEnc s (latch s 4) ∧
      (Spec.draws .cfbEnc s (latch s 4) = true → s.rng ≠ none) := by
  refine ⟨rfl, ?_, ?_⟩ <;> decide +kernel

/-- A command that ends with an error, on a state whose ERR is 0. -/
abbrev endsWith (s : State) (w : Word) (i : Instr) (code : BitVec 4) : Prop :=
  (s.start w 0).err = false ∧ ∃ t, exec i (s.start w 0) = .next t ∧ t.err = true ∧ t.errcode = code

theorem witness_ErrorEntryChangesNothingElse_range : endsWith (frameAt 256 4094) 0x0000AC01 (.frame 0xAC) 2 :=
  ⟨rfl, _, rfl, by decide +kernel⟩

theorem witness_ErrorEntryChangesNothingElse_random : endsWith (cfbState true none) 4 .cfbEnc 5 :=
  ⟨rfl, _, rfl, by decide +kernel⟩

theorem witness_CommandFrame :
    ∃ t, (literalState.start 0x0000AC02 0).eng = .busy (runOf literalState 0x0000AC02 0) ∧
      exec (.literal 0xAC) (literalState.start 0x0000AC02 0) = .next t ∧
      ¬ ((runOf literalState 0x0000AC02 0).lat.dstAddr.toNat ≤ 4083 ∧
        4083 < (runOf literalState 0x0000AC02 0).lat.dstAddr.toNat + t.resLen.toNat) := by
  refine ⟨_, rfl, rfl, ?_⟩
  decide +kernel

theorem witness_CommandFrame_others : Instr.radix64 ≠ .crcInit ∧ Instr.radix64 ≠ .crcUpdate ∧ Instr.radix64 ≠ .armor ∧
    Instr.radix64 ≠ .cfbEnc ∧ Instr.radix64 ≠ .mdcWrap := by decide

theorem witness_OperandWritesDoNotReachRunningCommand : ∃ t, exec .mdcWrap (mdcState.start 3 0) = .next t := ⟨_, rfl⟩

theorem witness_WritesOutsideFootprintCommute :
    let run := runOf (ready [0x61] 0 0x100) 0x0000AC02 3
    literalRunning.Inv ∧ literalRunning.eng = .busy run ∧ decode run.lat.cmd = .ok (.literal 0xAC) ∧
      run.dst = destRange literalRunning run.lat ∧ inFootprint literalRunning.params run 0xFF = false ∧
      inFootprint literalRunning.params run 0x109 = false := by
  refine ⟨literalRunning_inv, rfl, ?_, ?_, ?_, ?_⟩ <;> decide +kernel

theorem witness_FootprintOfAcceptedCommand :
    (idle.start 3 7).eng = .busy (runOf idle 3 7) := rfl

theorem witness_CmdWriteAccepted :
    Spec.hostTurn (asking (.regWrite 0x00 4 0x00000009)) (.regWrite 0x00 4 0x00000009) [] ∧
      (asking (.regWrite 0x00 4 0x00000009)).eng = .idle ∧ (asking (.regWrite 0x00 4 0x00000009)).busy = false :=
  ⟨asking_turn _, rfl, rfl⟩

theorem witness_CmdWriteDroppedWhileBusy :
    Spec.hostTurn (busyAsking (.regWrite 0x00 4 0)) (.regWrite 0x00 4 0) [] ∧ (busyAsking (.regWrite 0x00 4 0)).busy = true :=
  ⟨busyAsking_turn _, rfl⟩

theorem witness_RegisterWrites :
    ∀ off ∈ [0x08, 0x0C, 0x10, 0x14, 0x1C, 0x20, 0x30, 0x3C, 0x40, 0x4C, 0x18, 0x50, 0x54, 0xFC],
      Spec.hostTurn (asking (.regWrite off 4 0xFFFFFFFF)) (.regWrite off 4 0xFFFFFFFF) [] ∧
        Spec.hostTurn (busyAsking (.regWrite off 4 0xFFFFFFFF)) (.regWrite off 4 0xFFFFFFFF) [] :=
  fun _ _ => ⟨asking_turn _, busyAsking_turn _⟩

theorem witness_RegisterWrites_reserved : 0x54 ≤ 0xFC ∧ 0xFC < 0x100 ∧ 0xFC % 4 = 0 := by decide

theorem witness_StatusWriteOneToClear :
    Spec.hostTurn (asking (.regWrite 0x04 4 0x0000000E)) (.regWrite 0x04 4 0x0000000E) [] := asking_turn _

theorem witness_StatusWriteOneToClear_lowers :
    let t := host { idle with done := true, ctrl := 1 } (.regWrite 0x04 4 0x0000000E)
    t.done = false ∧ t.err = false := by decide +kernel

theorem witness_RegisterReads :
    ∀ off ∈ [0x00, 0x04, 0x30, 0x3C, 0x40, 0x4C, 0x50, 0x54, 0xFC],
      Spec.hostTurn (busyAsking (.regRead off 4)) (.regRead off 4) [] ∧ off < 0x100 ∧ off % 4 = 0 := by
  intro off h
  refine ⟨busyAsking_turn _, ?_⟩
  revert off
  decide

theorem witness_UndefinedAccessRefused :
    Spec.hostTurn (asking (.regRead 0x04 2)) (.regRead 0x04 2) [] ∧
      Spec.hostTurn (asking (.regRead 0x02 4)) (.regRead 0x02 4) [] ∧
      Spec.hostTurn (asking (.regWrite 0x100 4 0)) (.regWrite 0x100 4 0) [] ∧ 2 ≠ 4 ∧ 0x02 % 4 ≠ 0 ∧ 0x100 ≤ 0x100 :=
  ⟨asking_turn _, asking_turn _, asking_turn _, by decide, by decide, by decide⟩

theorem witness_KeyNeverReadable :
    Spec.hostTurn (asking (.regRead 0x30 4)) (.regRead 0x30 4) [] ∧ ∃ t, step (asking (.regRead 0x30 4)) = .next t :=
  ⟨asking_turn _, _, rfl⟩

/-- A buffer read in the running command's destination range, and the poll of a `wait`. -/
theorem witness_KeyNeverReadable_others :
    (Spec.hostTurn (busyAsking (.bufRead 0x108)) (.bufRead 0x108) [] ∧ ∃ t, step (busyAsking (.bufRead 0x108)) = .next t) ∧
      Spec.hostTurn (busyAsking .wait) .wait [] ∧ ∃ t, step (busyAsking .wait) = .next t :=
  ⟨⟨busyAsking_turn _, _, rfl⟩, busyAsking_turn _, _, rfl⟩

theorem witness_BufferPortWrites_outside :
    Spec.hostTurn (asking (.bufWrite 4096 1)) (.bufWrite 4096 1) [] ∧
      (asking (.bufWrite 4096 1)).params.bufSize.toNat ≤ 4096 := ⟨asking_turn _, by decide⟩

theorem witness_BufferPortWrites_idle :
    Spec.hostTurn (asking (.bufWrite 4095 1)) (.bufWrite 4095 1) [] ∧
      4095 < (asking (.bufWrite 4095 1)).params.bufSize.toNat ∧ (asking (.bufWrite 4095 1)).eng = .idle :=
  ⟨asking_turn _, by decide, rfl⟩

theorem witness_BufferPortWrites_busy :
    Spec.hostTurn (busyAsking (.bufWrite 0x108 1)) (.bufWrite 0x108 1) [] ∧
      inFootprint params (runOf (ready [0x61] 0 0x100) 0x0000AC02 3) 0x108 = true ∧
      inFootprint params (runOf (ready [0x61] 0 0x100) 0x0000AC02 3) 0x109 = false := by
  refine ⟨busyAsking_turn _, ?_, ?_⟩ <;> decide +kernel

theorem witness_BufferPortReads :
    Spec.hostTurn (busyAsking (.bufRead 0x108)) (.bufRead 0x108) [] ∧
      (runOf (ready [0x61] 0 0x100) 0x0000AC02 3).dst.has 0x108 = true ∧
      (runOf (ready [0x61] 0 0x100) 0x0000AC02 3).dst.has 0x109 = false := by
  refine ⟨busyAsking_turn _, ?_, ?_⟩ <;> decide +kernel

theorem witness_BufferPortReads_outside :
    Spec.hostTurn (asking (.bufRead 4096)) (.bufRead 4096) [] ∧ (asking (.bufRead 4096)).params.bufSize.toNat ≤ 4096 :=
  ⟨asking_turn _, by decide⟩

theorem witness_HostResetState : Spec.hostTurn (busyAsking .reset) .reset [] := busyAsking_turn _

theorem witness_MarksSetAndCleared : ∃ t, step (busyAsking (.bufWrite 0 1)) = .next t := ⟨_, rfl⟩

theorem witness_MarksSetAndCleared_access : ∃ t, step (busyAsking (.regRead 0x102 4)) = .next t := ⟨_, rfl⟩

theorem witness_InterruptLine_illegal : ∃ t, execIllegal (idle.start 0x00000105 0) = .next t := ⟨_, rfl⟩

theorem witness_InterruptLine :
    (∃ t, exec .nop (idle.start 0 0) = .next t) ∧ (0x0000000E : Word).getLsbD 1 = true ∧
      (0x0000000E : Word).getLsbD 2 = true := ⟨⟨_, rfl⟩, by decide, by decide⟩

theorem witness_RunningCommandUndisturbed :
    literalRunning.Inv ∧ Spec.hostTurn literalRunning .wait [] ∧
      literalRunning.eng = .busy (runOf (ready [0x61] 0 0x100) 0x0000AC02 3) ∧ HostOp.wait ≠ .reset ∧
      ∃ t, step literalRunning = .next t :=
  ⟨literalRunning_inv, busyAsking_turn _, rfl, by decide, _, rfl⟩

theorem witness_WaitPollsStatus : Spec.hostTurn (busyAsking .wait) .wait [] ∧ Spec.hostTurn (asking .wait) .wait [] :=
  ⟨busyAsking_turn _, asking_turn _⟩

end Sys2Proof.Tests
end

/-! ## Proofs: every step answers a next state -/

namespace Sys2Proof.Machine

/-- An idle PGE whose host makes no access keeps its state (R261). -/
theorem step_quiet {s : State} (he : s.eng = .idle) (hs : s.script = []) : step s = .next s := by
  have ht : s.turn = .quiet := by simp only [State.turn, he, hs]
  rw [step, ht]

/-- On the engine's turn the latched word decides what is published, a command's result or the error ILLEGAL, but a
next state is answered either way: the engine is busy, so neither completion finds the command missing (R86, R87). -/
theorem step_engine_next {s : State} {run : Running} (he : s.eng = .busy run) (hw : run.wait = 0 ∨ s.script = []) :
    ∃ t, step s = .next t := by
  rw [step_engine he hw]
  cases decode run.lat.cmd with
  | ok i => exact ⟨_, rfl⟩
  | error e => exact ⟨_, rfl⟩

/-- Settles O8, by whose turn the step is: the engine publishes, the host's access is a total function of the state
(a race and an undefined access are marks), and a quiet PGE stays as it is. -/
theorem stepNeverStops : Obligations.StepNeverStops := by
  intro s
  rcases turn_cases s with ⟨run, he, hw, -⟩ | ⟨op, rest, hs, hw, -⟩ | ⟨he, hs, -⟩
  · exact step_engine_next he hw
  · exact ⟨_, step_host hs hw⟩
  · exact ⟨s, step_quiet he hs⟩

end Sys2Proof.Machine

/-! ## Proofs: the host's turn, said once -/

namespace Sys2Proof.Machine

theorem tick_eq_passed (s : State) (rest : List HostOp) :
    State.tick { s with script := rest } = Spec.passed s rest := by
  unfold State.tick Spec.passed
  cases he : s.eng <;> simp

/-- On the host's turn one host step passes, and then the access at the head of the script is made (R12, R40). -/
theorem step_hostTurn {s : State} {op : HostOp} {rest : List HostOp} (h : Spec.hostTurn s op rest) :
    step s = .next ((Spec.passed s rest).access op) := by
  rw [step_host h.1 h.2, hostStep, tick_eq_passed]

theorem passed_of_idle {s : State} (he : s.eng = .idle) (rest : List HostOp) :
    Spec.passed s rest = { s with script := rest } := by
  simp only [Spec.passed, he]

theorem passed_of_busy {s : State} {run : Running} (he : s.eng = .busy run) (rest : List HostOp) :
    Spec.passed s rest = { s with script := rest, eng := .busy { run with wait := run.wait - 1 } } := by
  simp only [Spec.passed, he]

theorem regAccessDefined_iff {off width : Nat} :
    regAccessDefined off width = true ↔ width = 4 ∧ off % 4 = 0 ∧ off < 0x100 := by
  simp [regAccessDefined, and_assoc]

theorem regWrite_undefined {s : State} {off width : Nat} {v : Word} (h : ¬ regAccessDefined off width = true) :
    s.regWrite off width v = { s with refused := true } := if_neg h

theorem regRead_undefined {s : State} {off width : Nat} (h : ¬ regAccessDefined off width = true) :
    s.regRead off width = { s with refused := true, readData := none } := if_neg h

end Sys2Proof.Machine

/-! ## Proofs: the invariant -/

namespace Sys2Proof.Machine

variable {s : State}

theorem engineInv_of_idle (he : s.eng = .idle) : s.engineInv ↔ s.busy = false := by
  simp only [State.engineInv, he]

theorem engineInv_of_busy {run : Running} (he : s.eng = .busy run) :
    s.engineInv ↔ s.busy = true ∧ s.errInfo = 0 ∧ s.lastopc = opcField run.lat.cmd ∧
      (run.dst.len = 0 ∨ inBuf s.params run.dst = true) := by
  simp only [State.engineInv, he]

/-! The engine's turn: a completion clears BUSY, so it needs only what a busy state says of DONE and ERR, and the write
that `WritesDst` allows. -/

theorem WritesDst.bufInv {i : Instr} {l : Latched} {o : Output} (hw : WritesDst i s l o) (h : s.bufInv) :
    (s.completeOk o).bufInv := by
  obtain ⟨hwf, hlt, hpos⟩ := h
  rcases hw.shape with ⟨hnil, -⟩ | ⟨bytes, hone, hlen, hin⟩
  · have hbuf : (s.completeOk o).buf = s.buf := by simp [hnil, Memory.putAll]
    exact ⟨hbuf ▸ hwf, hbuf ▸ hlt, hpos⟩
  · have hfit : l.dstAddr.toNat + bytes.length ≤ s.params.bufSize.toNat := by
      simpa [inBuf_iff, Latched.dst, hlen] using hin
    have hbuf : (s.completeOk o).buf = Memory.putBytes s.buf l.dstAddr.toNat bytes := by
      simp [hone, Memory.putAll]
    refine ⟨hbuf ▸ Memory.wf_putBytes bytes hwf _, ?_, hpos⟩
    rw [hbuf]
    exact Memory.putBytes_bound bytes hlt hfit

theorem ErrCode.number_ne_zero (c : ErrCode) : c.number ≠ 0 := by cases c <;> decide

theorem ErrCode.number_le (c : ErrCode) : c.number.toNat ≤ 5 := by cases c <;> decide

theorem State.Inv.completeOk (h : s.Inv) (hb : s.busy = true) {o : Output} (hbuf : (s.completeOk o).bufInv) :
    (s.completeOk o).Inv := by
  obtain ⟨⟨hbusy, -, hcode, hle⟩, -, -⟩ := h
  obtain ⟨-, herr⟩ := hbusy hb
  exact ⟨⟨by simp, by simp [herr], hcode, hle⟩, rfl, hbuf⟩

theorem State.Inv.errorEntry (h : s.Inv) (hb : s.busy = true) (e : Err) : (s.errorEntry e).Inv := by
  obtain ⟨⟨hbusy, -⟩, -, hbuf⟩ := h
  obtain ⟨hdone, -⟩ := hbusy hb
  exact ⟨⟨by simp, by simp [hdone], iff_of_false (by simp) e.code.number_ne_zero, e.code.number_le⟩, rfl, hbuf⟩

/-- A draw touches no field that the invariant speaks of (R43). -/
theorem State.Inv.consumeDraw (h : s.Inv) : s.consumeDraw.Inv := h

theorem State.Inv.publish (h : s.Inv) (hb : s.busy = true) {c : Completed}
    (hc : ∀ o, c.result = .ok o → (s.completeOk o).bufInv) : (s.publish c).Inv := by
  have hd : (if c.drew then s.consumeDraw else s).Inv := by split <;> [exact h.consumeDraw; exact h]
  have hdb : (if c.drew then s.consumeDraw else s).busy = true := by split <;> exact hb
  rcases publish_cases s c with ⟨o, ho, hp⟩ | ⟨e, -, hp⟩
  · rw [hp]
    refine hd.completeOk hdb ?_
    split <;> exact hc o ho
  · rw [hp]
    exact hd.errorEntry hdb e

theorem step_engine_keeps_inv {t : State} {run : Running} (h : s.Inv) (he : s.eng = .busy run)
    (hw : run.wait = 0 ∨ s.script = []) (ht : step s = .next t) : t.Inv := by
  have ⟨_, heng, hbuf⟩ := h
  obtain ⟨hb, -⟩ := (engineInv_of_busy he).1 heng
  rw [step_engine he hw] at ht
  cases hd : decode run.lat.cmd with
  | ok i =>
    simp only [hd, Host.Outcome.next.injEq] at ht
    exact ht ▸ h.publish hb fun o ho => (resultOf_ok ho).bufInv hbuf
  | error _ =>
    simp only [hd, Host.Outcome.next.injEq] at ht
    exact ht ▸ h.publish hb fun o ho => nomatch ho

/-! The host's turn: the wait counts down, and no access but accept and reset moves the engine. -/

theorem State.Inv.passed (h : s.Inv) (rest : List HostOp) : (Spec.passed s rest).Inv := by
  obtain ⟨hst, heng, hbuf⟩ := h
  refine ⟨hst, ?_, hbuf⟩
  cases he : s.eng with
  | idle => rw [passed_of_idle he]; exact heng
  | busy run => rw [passed_of_busy he]; exact (engineInv_of_busy he).1 heng

/-- The destination range that accept fixes is empty or inside BUF (R65, R72). -/
theorem destRange_fits (s : State) (l : Latched) :
    (destRange s l).len = 0 ∨ inBuf s.params (destRange s l) = true := by
  unfold destRange
  cases decode l.cmd with
  | error _ => exact .inl rfl
  | ok i =>
    simp only
    cases hr : (resultOf i { s with rng := some zeroBlock } l).result with
    | err _ => exact .inl rfl
    | ok o =>
      rcases (resultOf_ok hr).shape with ⟨-, hlen⟩ | ⟨-, -, -, hin⟩
      · exact .inl hlen
      · exact .inr hin

theorem State.Inv.accept (h : s.Inv) (v : Word) : (s.accept v).Inv := by
  obtain ⟨-, -, hbuf⟩ := h
  refine ⟨⟨fun _ => ⟨rfl, rfl⟩, nofun, iff_of_true rfl rfl, Nat.zero_le 5⟩, ?_, hbuf⟩
  exact ⟨rfl, rfl, rfl, destRange_fits s (latch s v)⟩

theorem State.Inv.writeCmd (h : s.Inv) (v : Word) : (s.writeCmd v).Inv := by
  unfold State.writeCmd
  split
  · exact h
  · exact h.accept v

theorem State.Inv.writeStatus (h : s.Inv) (v : Word) : (s.writeStatus v).Inv := by
  obtain ⟨⟨hbusy, hboth, hcode, hle⟩, heng, hbuf⟩ := h
  refine ⟨⟨fun hb => ?_, fun ⟨hd, he⟩ => hboth ?_, ?_, ?_⟩, heng, hbuf⟩
  · obtain ⟨hd, he⟩ := hbusy hb
    simp [hd, he]
  · exact ⟨(Bool.and_eq_true_iff.1 hd).1, (Bool.and_eq_true_iff.1 he).1⟩
  · rw [State.writeStatus_err, State.writeStatus_errcode]
    cases v.getLsbD 2 with
    | false => simpa using hcode
    | true => simp
  · rw [State.writeStatus_errcode]
    split <;> [decide; exact hle]

/-- Only CMD and STATUS reach a field that the invariant speaks of (R231). -/
theorem State.Inv.writeReg (h : s.Inv) (r : Reg) (v : Word) : (s.writeReg r v).Inv := by
  cases r with
  | cmd => exact h.writeCmd v
  | status => exact h.writeStatus v
  | _ => exact h

theorem State.Inv.regWrite (h : s.Inv) (off width : Nat) (v : Word) : (s.regWrite off width v).Inv := by
  unfold State.regWrite
  split
  · exact h.writeReg (.at off) v
  · exact h

theorem State.Inv.regRead (h : s.Inv) (off width : Nat) : (s.regRead off width).Inv := by
  unfold State.regRead
  split <;> exact h

theorem State.Inv.writeByte (h : s.Inv) {a : Nat} (ha : a < s.params.bufSize.toNat) (b : Byte) :
    (s.writeByte a b).Inv := by
  obtain ⟨hst, heng, hwf, hlt, hpos⟩ := h
  refine ⟨hst, heng, Memory.wf_put hwf a b, fun c hc => ?_, hpos⟩
  rcases Memory.mem_put hc with hc | hc
  · exact hc ▸ ha
  · exact hlt c hc

theorem State.Inv.bufWrite (h : s.Inv) (addr : Nat) (b : Byte) : (s.bufWrite addr b).Inv := by
  unfold State.bufWrite
  split
  · exact h
  · have hw := h.writeByte (Nat.lt_of_not_le ‹_›) b
    split
    · exact hw
    · split <;> exact hw

theorem State.Inv.bufRead (h : s.Inv) (addr : Nat) : (s.bufRead addr).Inv := by
  unfold State.bufRead
  split
  · exact h
  · split
    · exact h
    · split <;> exact h

theorem reset_statusInv : State.reset.statusInv := ⟨by decide, by decide, by decide, by decide⟩

theorem bufInv_of_nil (hbuf : s.buf = []) (hpos : 1 ≤ s.params.bufSize.toNat) : s.bufInv :=
  ⟨hbuf ▸ .nil, by simp [hbuf], hpos⟩

/-- The reset values of R23 are consistent, and BUF is empty, whatever parameters the implementation has (R280). -/
theorem State.Inv.hostReset (h : s.Inv) : s.hostReset.Inv := by
  obtain ⟨-, -, -, -, hpos⟩ := h
  exact ⟨reset_statusInv, rfl, bufInv_of_nil rfl hpos⟩

theorem State.Inv.access (h : s.Inv) (op : HostOp) : (s.access op).Inv := by
  cases op with
  | regWrite off width v => exact h.regWrite off width v
  | regRead off width => exact h.regRead off width
  | bufWrite addr b => exact h.bufWrite addr b
  | bufRead addr => exact h.bufRead addr
  | reset => exact h.hostReset
  | wait =>
    have hp := h.regRead 0x04 4
    unfold State.access
    dsimp only
    split <;> exact hp

/-- Settles O12, by whose turn the step is: the engine publishes into the range that the checks allow, the host's access
keeps the invariant whatever it is, and a quiet PGE stays as it is. -/
theorem stepKeepsInvariant : Obligations.StepKeepsInvariant := by
  intro s t h ht
  rcases turn_cases s with ⟨run, he, hw, -⟩ | ⟨op, rest, hs, hw, -⟩ | ⟨he, hs, -⟩
  · exact step_engine_keeps_inv h he hw ht
  · rw [step_hostTurn ⟨hs, hw⟩] at ht
    cases ht
    exact (h.passed rest).access op
  · rw [step_quiet he hs] at ht
    cases ht
    exact h

end Sys2Proof.Machine

/-! ## Proofs: what a command leaves alone -/

namespace Sys2Proof.Machine

/-- Publishing writes the result registers, BUF and the engine, and leaves every other field, whatever the result (R40,
R241). -/
theorem publish_frame (s : State) (c : Completed) :
    let t := s.publish c
    t = { s with
      busy := t.busy, done := t.done, err := t.err, errcode := t.errcode, resLen := t.resLen, errInfo := t.errInfo
      blkcnt := t.blkcnt, crc := t.crc, buf := t.buf, eng := t.eng, rng := t.rng, oracle := t.oracle } := by
  intro t
  rcases publish_cases s c with ⟨o, -, hp⟩ | ⟨e, -, hp⟩ <;> simp only [t, hp] <;> split <;> rfl

theorem publish_undrawn {s : State} {c : Completed} (hd : c.drew = false) :
    (s.publish c).rng = s.rng ∧ (s.publish c).oracle = s.oracle := by
  rcases publish_cases s c with ⟨o, -, hp⟩ | ⟨e, -, hp⟩ <;> simp [hp, hd]

theorem publish_crc {s : State} {c : Completed} (hc : ∀ o, c.result = .ok o → o.crcOut = none) :
    (s.publish c).crc = s.crc := by
  rcases publish_cases s c with ⟨o, ho, hp⟩ | ⟨e, -, hp⟩
  · rw [hp, State.completeOk_crc, hc o ho]; split <;> rfl
  · rw [hp]; split <;> rfl

theorem publish_blkcnt {s : State} {c : Completed} (hc : ∀ o, c.result = .ok o → o.blkOut = none) :
    (s.publish c).blkcnt = s.blkcnt := by
  rcases publish_cases s c with ⟨o, ho, hp⟩ | ⟨e, -, hp⟩
  · rw [hp, State.completeOk_blkcnt, hc o ho]; split <;> rfl
  · rw [hp]; split <;> rfl

/-- Which registers besides RES_LEN a command's success names: CRC only for CRC_INIT, CRC_UPDATE and ARMOR (R31), BLKCNT only
for CFB_ENC (R36). -/
theorem resultOf_ok_registers {i : Instr} {s : State} {l : Latched} {o : Output}
    (h : (resultOf i s l).result = .ok o) :
    (i ≠ .crcInit → i ≠ .crcUpdate → i ≠ .armor → o.crcOut = none) ∧ (i ≠ .cfbEnc → o.blkOut = none) := by
  cases i with
  | nop => cases h; exact ⟨fun _ _ _ => rfl, fun _ => rfl⟩
  | crcInit => cases h; exact ⟨fun h => absurd rfl h, fun _ => rfl⟩
  | frame _ | literal _ | literalNohdr | radix64 =>
    obtain ⟨-, hk⟩ := guarded_ok h
    cases hk
    exact ⟨fun _ _ _ => rfl, fun _ => rfl⟩
  | crcUpdate =>
    obtain ⟨-, hk⟩ := guarded_ok h
    cases hk
    exact ⟨fun _ h => absurd rfl h, fun _ => rfl⟩
  | armor =>
    obtain ⟨-, hk⟩ := guarded_ok h
    cases hk
    exact ⟨fun _ _ h => absurd rfl h, fun _ => rfl⟩
  | mdcWrap =>
    obtain ⟨-, hk⟩ := guarded_ok h
    split at hk
    · cases hk; exact ⟨fun _ _ _ => rfl, fun _ => rfl⟩
    · obtain ⟨r, -, rfl⟩ := withDraw_ok hk; exact ⟨fun _ _ _ => rfl, fun _ => rfl⟩
  | cfbEnc =>
    obtain ⟨rfl, -⟩ := cfbResult_ok h
    exact ⟨fun _ _ _ => rfl, fun h => absurd rfl h⟩

theorem withDraw_drew (s : State) (f : Block → Output) : (withDraw s f).drew = true := by
  unfold withDraw
  split <;> rfl

/-- A command draws only where R242 item 8 lets it. -/
theorem resultOf_drew {i : Instr} {s : State} {l : Latched} (h : Spec.draws i s l = false) :
    (resultOf i s l).drew = false := by
  obtain ⟨k, hk, hr⟩ := resultOf_cases i s l
  rw [hr]
  cases checkError i s l with
  | some e => rfl
  | none =>
    rcases hk with ⟨o, rfl, -, -⟩ | ⟨f, -, -, hd⟩
    · rfl
    · rw [h] at hd; cases hd

theorem draws_eq_false {i : Instr} (hm : i ≠ .mdcWrap) (hc : i ≠ .cfbEnc) (s : State) (l : Latched) :
    Spec.draws i s l = false := by
  simp [Spec.draws, hm, hc]

/-- Publishing a command's result changes no byte outside `[DST_ADDR, DST_ADDR + RES_LEN)` (R40, R64). -/
theorem readByte_publish_outside {i : Instr} {s : State} {l : Latched} {a : Nat}
    (ha : ¬ (l.dstAddr.toNat ≤ a ∧ a < l.dstAddr.toNat + (s.publish (resultOf i s l)).resLen.toNat)) :
    (s.publish (resultOf i s l)).readByte a = s.readByte a := by
  have hepoch : (s.publish (resultOf i s l)).bufEpoch = s.bufEpoch := by rw [publish_frame]
  rcases publish_cases s (resultOf i s l) with ⟨o, ho, hp⟩ | ⟨e, -, hp⟩
  · have hw := resultOf_ok ho
    have hbuf : (s.publish (resultOf i s l)).buf = Memory.putAll s.buf o.writes := by
      rw [hp, State.completeOk_buf]; split <;> rfl
    rcases hw.shape with ⟨hnil, -⟩ | ⟨bytes, hone, hlen, -⟩
    · exact State.readByte_congr (by rw [hbuf, hnil]; rfl) hepoch a
    · have hres : (s.publish (resultOf i s l)).resLen.toNat = bytes.length := by
        have := hw.short
        rw [hp, State.completeOk_resLen, BitVec.toNat_ofNat, hlen, Nat.mod_eq_of_lt (by simp only [maxLen] at this; omega)]
      calc (s.publish (resultOf i s l)).readByte a
        _ = (s.memWrite l.dstAddr.toNat bytes).readByte a :=
          State.readByte_congr (t := s.memWrite l.dstAddr.toNat bytes) (by rw [hbuf, hone]; rfl) hepoch a
        _ = s.readByte a := by rw [State.readByte_memWrite, dif_neg (hres ▸ ha)]
  · refine State.readByte_congr ?_ hepoch a
    rw [hp]; split <;> rfl

/-- Settles O43: completion publishes the command's result, so the frame is that of publishing and of what the result may
name. -/
theorem commandFrame : Obligations.CommandFrame := by
  intro i s t run he ht
  rw [exec_busy he] at ht
  cases ht
  refine ⟨?_, fun h1 h2 h3 => ?_, fun h => ?_, fun h1 h2 => ?_, fun a ha => readByte_publish_outside ha⟩
  · rw [publish_frame]
    simp only [and_self]
  · exact publish_crc fun o ho => (resultOf_ok_registers ho).1 h1 h2 h3
  · exact publish_blkcnt fun o ho => (resultOf_ok_registers ho).2 h
  · exact publish_undrawn (resultOf_drew (draws_eq_false h1 h2 s run.lat))

/-! The operand registers and KEY reach a running command only through its latched record (R39, R287). -/

/-- A result function reads BUF, the parameters, CRC and the random source, and no operand register. -/
theorem resultOf_withOperands (i : Instr) (s : State) (l : Latched) (c : BitVec 3) (a : Vector Word 5)
    (k p : Vector Word 4) : resultOf i (Spec.withOperands s c a k p) l = resultOf i s l := by
  cases i <;> rfl

theorem publish_withOperands (s : State) (r : Completed) (c : BitVec 3) (a : Vector Word 5) (k p : Vector Word 4) :
    (Spec.withOperands s c a k p).publish r = Spec.withOperands (s.publish r) c a k p := by
  obtain ⟨drew, result⟩ := r
  cases drew <;> cases result <;> rfl

/-- Settles O44: the result is computed from the latched record, and publishing it writes no operand register. -/
theorem operandWritesDoNotReachRunningCommand : Obligations.OperandWritesDoNotReachRunningCommand := by
  intro i s t c a k p ht
  obtain ⟨run, he, rfl⟩ := exec_next ht
  have he' : (Spec.withOperands s c a k p).eng = .busy run := he
  rw [exec_busy he', resultOf_withOperands, publish_withOperands]

/-! ## Proofs: the host port and KEY -/

theorem passed_key (s : State) (rest : List HostOp) (k : Vector Word 4) :
    Spec.passed { s with key := k } rest = { Spec.passed s rest with key := k } := rfl

/-- KEY0 to KEY3 read 0, and no other register shows KEY (R34). -/
theorem readReg_key (s : State) (r : Reg) (k : Vector Word 4) : State.readReg { s with key := k } r = s.readReg r := by
  cases r <;> rfl

theorem regRead_key (s : State) (off width : Nat) (k : Vector Word 4) :
    State.regRead { s with key := k } off width = { s.regRead off width with key := k } := by
  unfold State.regRead
  split
  · rw [readReg_key]
  · rfl

theorem bufRead_key (s : State) (addr : Nat) (k : Vector Word 4) :
    State.bufRead { s with key := k } addr = { s.bufRead addr with key := k } := by
  unfold State.bufRead
  dsimp only
  split
  · rfl
  · cases s.eng with
    | idle => rfl
    | busy run => dsimp only; split <;> rfl

theorem access_wait_key (s : State) (k : Vector Word 4) :
    State.access { s with key := k } .wait = { s.access .wait with key := k } := by
  unfold State.access
  rw [regRead_key, show State.statusWord { s with key := k } = s.statusWord from rfl]
  dsimp only
  split <;> rfl

/-- Settles O53, read by read: neither the value returned nor the state left takes anything from KEY. -/
theorem keyNeverReadable : Obligations.KeyNeverReadable := by
  intro s t op rest k hop hturn ht
  rw [step_hostTurn hturn] at ht
  cases ht
  rw [step_hostTurn (s := { s with key := k }) hturn, passed_key]
  rcases hop with ⟨off, width, rfl⟩ | ⟨addr, rfl⟩ | rfl
  · exact congrArg _ (regRead_key _ off width k)
  · exact congrArg _ (bufRead_key _ addr k)
  · exact congrArg _ (access_wait_key _ k)

end Sys2Proof.Machine

/-! ## Proofs: the engine's turn, and a word placed for it -/

namespace Sys2Proof

/-- The decoder reads back the command that the encoder wrote (R85, R86). -/
theorem decode_encode {i : Instr} (h : i.wellFormed = true) : decode (encode i) = .ok i := by
  cases i with
  | frame tag | literal tag =>
    have ht : tag < 256 := of_decide_eq_true h
    rw [encode, decode_commandWord (by omega) ht (by omega)]
    simp [decodeFields, Nat.mod_eq_of_lt ht]
  | _ => decide

/-- The low 32 bits of a word's number are the word. -/
theorem tableWord_toNat (v : Word) : tableWord 32 v.toNat = v := by
  apply BitVec.eq_of_toNat_eq
  simpa [tableWord] using v.isLt

namespace Machine

theorem step_engine_exec {s : State} {run : Running} {i : Instr} (he : s.eng = .busy run)
    (hw : run.wait = 0 ∨ s.script = []) (hd : decode run.lat.cmd = .ok i) : step s = exec i s := by
  simp only [step_engine he hw, hd, exec_busy he]

/-- Settles O7. -/
theorem stepRunsLatchedCommand : Obligations.StepRunsLatchedCommand := by
  intro s run i he hw hd
  exact step_engine_exec he hw hd

/-- Settles O9: the placed word is the command's own word, latched with no wait, so the next step decodes and runs it. -/
theorem fetchedWordRuns : Obligations.FetchedWordRuns := by
  intro s i hi
  have hd := decode_encode hi
  have heng : (s.withFetchWord 32 (encode i).toNat).eng =
      .busy ⟨latch s (encode i), destRange s (latch s (encode i)), 0⟩ := by
    rw [State.withFetchWord, tableWord_toNat, State.start_eng]
  refine ⟨?_, heng, step_engine_exec heng (.inl rfl) hd⟩
  rw [decodeTableWord, tableWord_toNat, hd]
  rfl

/-! ## Proofs: reset -/

theorem ofConfig_bufSize_pos : 1 ≤ Params.ofConfig.bufSize.toNat := by
  have := Config.bufSizeLessOne.isLt
  simp only [Params.ofConfig, BitVec.toNat_ofNat]
  omega

/-- Settles O11. -/
theorem resetMeetsInvariant : Obligations.ResetMeetsInvariant :=
  ⟨reset_statusInv, rfl, bufInv_of_nil rfl ofConfig_bufSize_pos⟩

theorem irq_of_clear {s : State} (hd : s.done = false) (he : s.err = false) : s.irq = false := by
  simp [State.irq, hd, he]

/-- Settles O56: the step is the reset itself, whose fields are those of the reset state but for the fresh draws and what
is not PGE state. -/
theorem hostResetState : Obligations.HostResetState := by
  intro s rest h
  exact ⟨_, step_hostTurn h, rfl, rfl, rfl, rfl, rfl, rfl, rfl, rfl, rfl, rfl, rfl, rfl, rfl, rfl, rfl, rfl, rfl, rfl, rfl,
    irq_of_clear rfl rfl, rfl, rfl, rfl, rfl, fun _ => rfl⟩

/-! ## Proofs: CMD writes and refused accesses -/

theorem opcField_eq_ofNat (v : Word) : opcField v = BitVec.ofNat 8 (v.toNat % 256) := by
  apply BitVec.eq_of_toNat_eq
  rw [toNat_opcField, BitVec.toNat_ofNat]
  omega

theorem wordByte_eq_ofNat (w : Word) (j : Nat) : wordByte w j = BitVec.ofNat 8 (w.toNat / 2 ^ (24 - 8 * j)) := by
  apply BitVec.eq_of_toNat_eq
  simp [wordByte, Nat.shiftRight_eq_div_pow]

/-- Byte `4*i + j` of KEY or PFX as a block is byte j of word i (R34, R35). -/
theorem getElem_blockOfWords (ws : Vector Word 4) (i j : Fin 4) :
    (blockOfWords ws)[4 * i.val + j.val] = wordByte ws[i] j.val := by
  have hi : (4 * i.val + j.val) / 4 = i.val := by omega
  have hj : (4 * i.val + j.val) % 4 = j.val := by omega
  simp [blockOfWords, hi, hj]

theorem access_cmd (s : State) (v : Word) : s.access (.regWrite 0x00 4 v) = s.writeCmd v := rfl

theorem writeCmd_of_busy {s : State} (hb : s.busy = true) (v : Word) : s.writeCmd v = { s with cmdovr := true } :=
  if_pos hb

theorem writeCmd_of_not_busy {s : State} (hb : s.busy = false) (v : Word) : s.writeCmd v = s.accept v :=
  if_neg (by simp [hb])

/-- Settles O47: an idle PGE takes the word by accept, and accept's latch is what the registers hold. -/
theorem cmdWriteAccepted : Obligations.CmdWriteAccepted := by
  refine ⟨fun s v rest h he hb => ⟨Config.latency s.oracle, ?_⟩, fun ws i j => ?_⟩
  · rw [step_hostTurn h, access_cmd, writeCmd_of_not_busy (s := Spec.passed s rest) hb, passed_of_idle he, State.accept,
      State.start, destRange_script, opcField_eq_ofNat]
    rfl
  · rw [getElem_blockOfWords, wordByte_eq_ofNat]

/-- Settles O48. -/
theorem cmdWriteDroppedWhileBusy : Obligations.CmdWriteDroppedWhileBusy := by
  intro s v rest h hb
  rw [step_hostTurn h, access_cmd, writeCmd_of_busy (s := Spec.passed s rest) hb]

/-- Settles O52: the port defines none of these accesses, so both arms of it end in the refusal. -/
theorem undefinedAccessRefused : Obligations.UndefinedAccessRefused := by
  intro s off width v rest hbad
  have hundef : ¬ regAccessDefined off width = true := by
    rw [regAccessDefined_iff]
    omega
  refine ⟨fun h => ?_, fun h => ?_⟩
  · rw [step_hostTurn h, State.access, regWrite_undefined hundef]
  · rw [step_hostTurn h, State.access, regRead_undefined hundef]

end Machine
end Sys2Proof

/-! ## Proofs: the footprint of an accepted command -/

namespace Sys2Proof.Machine

/-- The first check of R242 that fails decides the result, whatever the draw would answer. -/
theorem resultOf_of_checkError {i : Instr} {s : State} {l : Latched} {e : Err} (h : checkError i s l = some e) :
    resultOf i s l = ⟨false, .err e⟩ := by
  obtain ⟨k, -, hr⟩ := resultOf_cases i s l
  rw [hr, h]

/-- A success has passed the checks and has the stated length. -/
theorem resultOf_ok_length {i : Instr} {s : State} {l : Latched} {o : Output} (h : (resultOf i s l).result = .ok o) :
    Spec.checksPass i s l ∧ o.resLen = Spec.resultLength s l i := by
  obtain ⟨k, hk, hr⟩ := resultOf_cases i s l
  cases hc : checkError i s l with
  | some e => rw [resultOf_of_checkError hc] at h; cases h
  | none =>
    refine ⟨checkError_none_iff.1 hc, ?_⟩
    rw [hr, hc] at h
    rcases hk with ⟨o', rfl, hlen, -⟩ | ⟨f, rfl, hlen, -⟩
    · cases h; exact hlen
    · obtain ⟨r, -, rfl⟩ := withDraw_ok h; exact hlen r

/-- Once the checks have passed and the draw does not fail, the command succeeds (R242, R135). -/
theorem resultOf_ok_of_checksPass {i : Instr} {s : State} {l : Latched} {r : Block} (h : Spec.checksPass i s l)
    (hr : s.rng = some r) : ∃ o, (resultOf i s l).result = .ok o := by
  obtain ⟨k, hk, hres⟩ := resultOf_cases i s l
  rw [hres, checkError_none_iff.2 h]
  rcases hk with ⟨o, rfl, -, -⟩ | ⟨f, rfl, -, -⟩
  · exact ⟨o, rfl⟩
  · exact ⟨f r, by simp only [withDraw, hr]⟩

theorem dst_has_iff {l : Latched} {m a : Nat} :
    (l.dst m).has a = true ↔ l.dstAddr.toNat ≤ a ∧ a < l.dstAddr.toNat + m := Range.has_iff

theorem destRange_of_illegal {s : State} {l : Latched} {e : Illegal} (h : decode l.cmd = .error e) :
    destRange s l = l.dst 0 := by
  simp only [destRange, h]

/-- The destination range holds the result's bytes when the checks pass and is empty otherwise. The draw that
`destRange` assumes to succeed reaches neither the checks nor the length (R72 (b), log entry 12). -/
theorem destRange_has_iff {i : Instr} {s : State} {l : Latched} (hd : decode l.cmd = .ok i) {a : Nat} :
    (destRange s l).has a = true ↔
      Spec.checksPass i s l ∧ l.dstAddr.toNat ≤ a ∧ a < l.dstAddr.toNat + Spec.resultLength s l i := by
  have hcheck : Spec.checksPass i { s with rng := some zeroBlock } l ↔ Spec.checksPass i s l := Iff.rfl
  have hlen : Spec.resultLength { s with rng := some zeroBlock } l i = Spec.resultLength s l i := rfl
  simp only [destRange, hd]
  cases hr : (resultOf i { s with rng := some zeroBlock } l).result with
  | ok o =>
    obtain ⟨hpass, ho⟩ := resultOf_ok_length hr
    rw [dst_has_iff, ho, hlen]
    exact (and_iff_right (hcheck.1 hpass)).symm
  | err e =>
    have hfail : ¬ Spec.checksPass i s l := fun h => by
      obtain ⟨o, ho⟩ := resultOf_ok_of_checksPass (hcheck.2 h) rfl
      rw [hr] at ho
      cases ho
    rw [dst_has_iff]
    exact iff_of_false (by omega) fun h => hfail h.1

theorem inSources_iff {i : Instr} {p : Params} {l : Latched} (hd : decode l.cmd = .ok i) {a : Nat} :
    inSources p l a = true ↔
      (Spec.readsSrc i = true ∧ inBuf p l.src = true ∧ l.src.has a = true) ∨
        (Spec.readsAux i l = true ∧ inBuf p l.aux = true ∧ l.aux.has a = true) := by
  rw [inSources, hd]
  exact any_sourceRanges_iff

theorem inFootprint_iff {p : Params} {run : Running} {a : Nat} :
    inFootprint p run a = true ↔ inSources p run.lat a = true ∨ run.dst.has a = true := by
  simp [inFootprint]

/-- An illegal word has no footprint (log entry 12). -/
theorem inFootprint_of_illegal {s : State} {l : Latched} {e : Illegal} (h : decode l.cmd = .error e) (wait a : Nat) :
    ¬ inFootprint s.params ⟨l, destRange s l, wait⟩ a = true := by
  rw [inFootprint_iff, destRange_of_illegal h, dst_has_iff, inSources, h]
  rintro (hsrc | hdst)
  · cases hsrc
  · omega

/-- Settles O46, by what the accepted word decodes to: the source part is R64's list, the destination part is what
`destRange` fixed at accept. -/
theorem footprintOfAcceptedCommand : Obligations.FootprintOfAcceptedCommand := by
  intro s v wait run hrun a
  rw [State.start_eng] at hrun
  cases hrun
  cases hd : decode v with
  | error e => exact iff_of_false (inFootprint_of_illegal (l := latch s v) hd wait a) (by simp)
  | ok i =>
    have hd' : decode (latch s v).cmd = .ok i := hd
    rw [inFootprint_iff, inSources_iff hd', destRange_has_iff hd', ← fits_iff, ← fits_iff]
    simp only [Except.ok.injEq, exists_eq_left', or_assoc]

/-! ## Proofs: what a host write outside the footprint leaves alone -/

theorem bufWrite_outside {s : State} {addr : Nat} (h : s.params.bufSize.toNat ≤ addr) (b : Byte) :
    s.bufWrite addr b = s := if_pos h

theorem bufWrite_idle {s : State} {addr : Nat} (h : addr < s.params.bufSize.toNat) (he : s.eng = .idle) (b : Byte) :
    s.bufWrite addr b = s.writeByte addr b := by
  rw [State.bufWrite, if_neg (Nat.not_le.2 h), he]

/-- While a command runs, a byte written into BUF races exactly inside the footprint (R73). -/
theorem bufWrite_busy {s : State} {run : Running} {addr : Nat} (h : addr < s.params.bufSize.toNat)
    (he : s.eng = .busy run) (b : Byte) :
    s.bufWrite addr b =
      if inFootprint s.params run addr then { s.writeByte addr b with faulted := true } else s.writeByte addr b := by
  rw [State.bufWrite, if_neg (Nat.not_le.2 h), he]

theorem memRead_writeByte {s : State} {r : Range} {a : Nat} (h : ¬ r.has a = true) (b : Byte) :
    (s.writeByte a b).memRead r = s.memRead r := by
  refine State.memRead_congr fun c hc => ?_
  have hac : a ≠ c := fun hac => h (hac ▸ hc)
  rw [State.readByte_writeByte, if_neg hac]

/-- A result function reads BUF in the source ranges of its command only (R64). -/
theorem resultOf_writeByte {i : Instr} {s : State} {l : Latched} {a : Nat} {b : Byte}
    (hsrc : Spec.readsSrc i = true → (s.writeByte a b).memRead l.src = s.memRead l.src)
    (haux : Spec.readsAux i l = true → (s.writeByte a b).memRead l.aux = s.memRead l.aux) :
    resultOf i (s.writeByte a b) l = resultOf i s l := by
  cases i with
  | nop | frame _ | crcInit => rfl
  | literal _ | literalNohdr =>
    simp only [resultOf, literalResult, hsrc rfl]
    rfl
  | mdcWrap =>
    simp only [resultOf, mdcResult, hsrc rfl]
    rfl
  | cfbEnc =>
    simp only [resultOf, cfbResult, cfbOutput, hsrc rfl]
    rfl
  | crcUpdate =>
    simp only [resultOf, crcUpdateResult, hsrc rfl]
    rfl
  | radix64 =>
    simp only [resultOf, radix64Result, hsrc rfl]
    rfl
  | armor =>
    have hver : versionLine l.versel ((s.writeByte a b).memRead l.aux) = versionLine l.versel (s.memRead l.aux) := by
      cases hv : l.versel with
      | false => rfl
      | true => rw [haux (by simp [Spec.readsAux, hv])]
    simp only [resultOf, armorResult, hsrc rfl, hver]
    rfl

theorem checkError_of_not_srcOk {i : Instr} {s : State} {l : Latched} (h : ¬ Spec.srcOk i s l) :
    checkError i s l = some (.range l.srcAddr) := if_pos h

theorem checkError_of_not_auxOk {i : Instr} {s : State} {l : Latched} (hs : Spec.srcOk i s l)
    (h : ¬ Spec.auxOk i s l) : checkError i s l = some (.range l.auxAddr) := by
  rw [checkError, if_neg (not_not.2 hs), if_pos h]

/-- A byte outside the source part of the footprint does not reach the result: either it lies outside every range that is
read, or a range that is read leaves BUF, and its check ends the command first. -/
theorem resultOf_writeByte_outside {i : Instr} {s : State} {l : Latched} {a : Nat} (hd : decode l.cmd = .ok i)
    (ha : ¬ inSources s.params l a = true) (b : Byte) : resultOf i (s.writeByte a b) l = resultOf i s l := by
  by_cases hsrc : Spec.srcOk i s l
  · by_cases haux : Spec.auxOk i s l
    · rw [inSources_iff hd] at ha
      refine resultOf_writeByte (fun h => ?_) (fun h => ?_)
      · exact memRead_writeByte (fun hhas => ha (.inl ⟨h, fits_iff.1 (hsrc h), hhas⟩)) b
      · exact memRead_writeByte (fun hhas => ha (.inr ⟨h, fits_iff.1 (haux h), hhas⟩)) b
    · rw [resultOf_of_checkError (checkError_of_not_auxOk hsrc haux),
        resultOf_of_checkError (checkError_of_not_auxOk (s := s.writeByte a b) hsrc haux)]
  · rw [resultOf_of_checkError (checkError_of_not_srcOk hsrc),
      resultOf_of_checkError (checkError_of_not_srcOk (s := s.writeByte a b) hsrc)]

theorem writeByte_completeOk {s : State} {o : Output} {a : Nat} {b : Byte}
    (h : Memory.putAll (Memory.put s.buf a b) o.writes = Memory.put (Memory.putAll s.buf o.writes) a b) :
    (s.writeByte a b).completeOk o = (s.completeOk o).writeByte a b := by
  simp only [State.completeOk, State.writeByte, h]

/-- A byte that no write of the result touches may be written before the result is published or after it. -/
theorem publish_writeByte {s : State} {c : Completed} {a : Nat} {b : Byte}
    (h : ∀ o, c.result = .ok o →
      Memory.putAll (Memory.put s.buf a b) o.writes = Memory.put (Memory.putAll s.buf o.writes) a b) :
    (s.writeByte a b).publish c = (s.publish c).writeByte a b := by
  obtain ⟨drew, result⟩ := c
  cases result with
  | err e => cases drew <;> rfl
  | ok o =>
    cases drew with
    | false => exact writeByte_completeOk (h o rfl)
    | true => exact writeByte_completeOk (s := s.consumeDraw) (h o rfl)

/-- The writes of a command's success stay inside the destination range fixed at accept, so a write to another byte
commutes with them. -/
theorem putAll_put_comm {i : Instr} {s : State} {l : Latched} {o : Output} {a : Nat} (hd : decode l.cmd = .ok i)
    (hwf : Memory.wf s.buf) (ho : (resultOf i s l).result = .ok o) (ha : ¬ (destRange s l).has a = true) (b : Byte) :
    Memory.putAll (Memory.put s.buf a b) o.writes = Memory.put (Memory.putAll s.buf o.writes) a b := by
  obtain ⟨hpass, hlen⟩ := resultOf_ok_length ho
  rcases (resultOf_ok ho).shape with ⟨hnil, -⟩ | ⟨bytes, hone, hbytes, -⟩
  · rw [hnil]; rfl
  · have hout : ¬ (l.dstAddr.toNat ≤ a ∧ a < l.dstAddr.toNat + bytes.length) := fun h =>
      ha ((destRange_has_iff hd).2 ⟨hpass, hlen ▸ hbytes ▸ h⟩)
    rw [hone]
    exact Memory.putBytes_put_comm bytes hwf b hout

theorem publish_params (s : State) (c : Completed) : (s.publish c).params = s.params := by rw [publish_frame]

theorem publish_eng (s : State) (c : Completed) : (s.publish c).eng = .idle := by
  rcases publish_cases s c with ⟨o, -, hp⟩ | ⟨e, -, hp⟩ <;> rw [hp] <;> rfl

/-- Settles O45: outside BUF nothing is written; inside, the byte reaches neither the result nor the bytes that the
result writes. -/
theorem writesOutsideFootprintCommute : Obligations.WritesOutsideFootprintCommute := by
  intro i s run addr b hinv he hd hdst hfoot
  obtain ⟨-, -, hwf, -, -⟩ := hinv
  refine ⟨_, exec_busy he, ?_⟩
  rcases Nat.lt_or_ge addr s.params.bufSize.toNat with hin | hout
  · have hnot : ¬ (inSources s.params run.lat addr = true ∨ (destRange s run.lat).has addr = true) := by
      rw [← hdst, ← inFootprint_iff, hfoot]
      exact Bool.false_ne_true
    have hwrite : s.bufWrite addr b = s.writeByte addr b := by
      rw [bufWrite_busy hin he, hfoot, if_neg Bool.false_ne_true]
    have he' : (s.writeByte addr b).eng = .busy run := he
    rw [hwrite, exec_busy he', resultOf_writeByte_outside hd (fun h => hnot (.inl h)),
      bufWrite_idle (publish_params s _ ▸ hin) (publish_eng s _),
      publish_writeByte fun o ho => putAll_put_comm hd hwf ho (fun h => hnot (.inr h)) b]
  · rw [bufWrite_outside hout, exec_busy he, bufWrite_outside (publish_params s _ ▸ hout)]

/-! ## Proofs: the two marks -/

theorem writeReg_marks (s : State) (r : Reg) (v : Word) :
    (s.writeReg r v).faulted = s.faulted ∧ (s.writeReg r v).refused = s.refused := by
  cases r with
  | cmd =>
    show (s.writeCmd v).faulted = s.faulted ∧ (s.writeCmd v).refused = s.refused
    unfold State.writeCmd
    split <;> exact ⟨rfl, rfl⟩
  | _ => exact ⟨rfl, rfl⟩

theorem regWrite_faulted (s : State) (off width : Nat) (v : Word) :
    (s.regWrite off width v).faulted = s.faulted := by
  unfold State.regWrite
  split
  · exact (writeReg_marks s _ v).1
  · rfl

theorem regRead_faulted (s : State) (off width : Nat) : (s.regRead off width).faulted = s.faulted := by
  unfold State.regRead
  split <;> rfl

/-- A register write sets the refusal mark exactly where the port does not define it (R24). -/
theorem regWrite_refused (s : State) (off width : Nat) (v : Word) :
    (s.regWrite off width v).refused = if regAccessDefined off width then s.refused else true := by
  unfold State.regWrite
  split
  · exact (writeReg_marks s _ v).2
  · rfl

/-- A register read sets the refusal mark exactly where the port does not define it (R24). -/
theorem regRead_refused (s : State) (off width : Nat) :
    (s.regRead off width).refused = if regAccessDefined off width then s.refused else true := by
  unfold State.regRead
  split <;> rfl

theorem bufWrite_refused (s : State) (addr : Nat) (b : Byte) : (s.bufWrite addr b).refused = s.refused := by
  unfold State.bufWrite
  split
  · rfl
  · split
    · rfl
    · split <;> rfl

theorem bufRead_marks (s : State) (addr : Nat) :
    (s.bufRead addr).faulted = s.faulted ∧ (s.bufRead addr).refused = s.refused := by
  unfold State.bufRead
  split
  · exact ⟨rfl, rfl⟩
  · split
    · exact ⟨rfl, rfl⟩
    · split <;> exact ⟨rfl, rfl⟩

/-- Each poll of a `wait` is a STATUS read, which the port defines. -/
theorem access_wait_marks (s : State) :
    (s.access .wait).faulted = s.faulted ∧ (s.access .wait).refused = s.refused := by
  unfold State.access
  dsimp only
  split <;> exact ⟨rfl, rfl⟩

theorem bufWrite_faulted_cases (s : State) (addr : Nat) (b : Byte) :
    (s.bufWrite addr b).faulted = s.faulted ∨
      ∃ run, s.eng = .busy run ∧ inFootprint s.params run addr = true ∧ addr < s.params.bufSize.toNat ∧
        (s.bufWrite addr b).faulted = true := by
  rcases Nat.lt_or_ge addr s.params.bufSize.toNat with hin | hout
  · cases he : s.eng with
    | idle => rw [bufWrite_idle hin he]; exact .inl rfl
    | busy run =>
      rw [bufWrite_busy hin he]
      split
      · exact .inr ⟨run, rfl, ‹_›, hin, rfl⟩
      · exact .inl rfl
  · rw [bufWrite_outside hout]; exact .inl rfl

/-- What a host access does to the faulted mark (R73, R235). -/
theorem access_faulted_cases (s : State) (op : HostOp) :
    (s.access op).faulted = s.faulted ∨ (op = .reset ∧ (s.access op).faulted = false) ∨
      ∃ addr b run, op = .bufWrite addr b ∧ s.eng = .busy run ∧ inFootprint s.params run addr = true ∧
        addr < s.params.bufSize.toNat ∧ (s.access op).faulted = true := by
  cases op with
  | regWrite off width v => exact .inl (regWrite_faulted s off width v)
  | regRead off width => exact .inl (regRead_faulted s off width)
  | bufWrite addr b =>
    rcases bufWrite_faulted_cases s addr b with hsame | ⟨run, hrace⟩
    · exact .inl hsame
    · exact .inr (.inr ⟨addr, b, run, rfl, hrace⟩)
  | bufRead addr => exact .inl (bufRead_marks s addr).1
  | reset => exact .inr (.inl ⟨rfl, rfl⟩)
  | wait => exact .inl (access_wait_marks s).1

/-- What a host access does to the refusal mark (R24, R235). -/
theorem access_refused_cases (s : State) (op : HostOp) :
    (s.access op).refused = s.refused ∨ (op = .reset ∧ (s.access op).refused = false) ∨
      ∃ off width, ¬ regAccessDefined off width = true ∧ (op = .regRead off width ∨ ∃ v, op = .regWrite off width v) ∧
        (s.access op).refused = true := by
  cases op with
  | regWrite off width v =>
    have hr : (s.access (.regWrite off width v)).refused = _ := regWrite_refused s off width v
    by_cases hdef : regAccessDefined off width = true
    · exact .inl (hr.trans (if_pos hdef))
    · exact .inr (.inr ⟨off, width, hdef, .inr ⟨v, rfl⟩, hr.trans (if_neg hdef)⟩)
  | regRead off width =>
    have hr : (s.access (.regRead off width)).refused = _ := regRead_refused s off width
    by_cases hdef : regAccessDefined off width = true
    · exact .inl (hr.trans (if_pos hdef))
    · exact .inr (.inr ⟨off, width, hdef, .inl rfl, hr.trans (if_neg hdef)⟩)
  | bufWrite addr b => exact .inl (bufWrite_refused s addr b)
  | bufRead addr => exact .inl (bufRead_marks s addr).2
  | reset => exact .inr (.inl ⟨rfl, rfl⟩)
  | wait => exact .inl (access_wait_marks s).2

/-- On the engine's turn the step publishes some result, a command's or the error of an illegal word (R40, R86). -/
theorem step_engine_publishes {s t : State} {run : Running} (he : s.eng = .busy run)
    (hw : run.wait = 0 ∨ s.script = []) (ht : step s = .next t) : ∃ c, t = s.publish c := by
  rw [step_engine he hw] at ht
  split at ht <;> cases ht <;> exact ⟨_, rfl⟩

theorem publish_marks (s : State) (c : Completed) :
    (s.publish c).faulted = s.faulted ∧ (s.publish c).refused = s.refused := by
  rw [publish_frame]
  exact ⟨rfl, rfl⟩

/-- A command in progress is the same before and after one host step, but for its wait. -/
theorem eng_of_passed_busy {s : State} {rest : List HostOp} {run : Running}
    (h : (Spec.passed s rest).eng = .busy run) :
    ∃ run', s.eng = .busy run' ∧ run = { run' with wait := run'.wait - 1 } := by
  cases he : s.eng with
  | idle => rw [passed_of_idle he] at h; cases he.symm.trans h
  | busy run' => rw [passed_of_busy he] at h; cases h; exact ⟨run', rfl, rfl⟩

theorem hostTurn_faulted_cases {s : State} {op : HostOp} {rest : List HostOp} (h : Spec.hostTurn s op rest) :
    let t := (Spec.passed s rest).access op
    t.faulted = s.faulted ∨ (∃ rest, Spec.hostTurn s .reset rest ∧ t.faulted = false) ∨
      ∃ addr b rest run, Spec.hostTurn s (.bufWrite addr b) rest ∧ s.eng = .busy run ∧
        inFootprint s.params run addr = true ∧ addr < s.params.bufSize.toNat ∧ t.faulted = true := by
  rcases access_faulted_cases (Spec.passed s rest) op with hsame | ⟨rfl, hclear⟩ |
    ⟨addr, b, run, rfl, he, hfoot, hin, hset⟩
  · exact .inl hsame
  · exact .inr (.inl ⟨rest, h, hclear⟩)
  · obtain ⟨run', he', rfl⟩ := eng_of_passed_busy he
    rw [footprint_wait] at hfoot
    exact .inr (.inr ⟨addr, b, rest, run', h, he', hfoot, hin, hset⟩)

theorem hostTurn_refused_cases {s : State} {op : HostOp} {rest : List HostOp} (h : Spec.hostTurn s op rest) :
    let t := (Spec.passed s rest).access op
    t.refused = s.refused ∨ (∃ rest, Spec.hostTurn s .reset rest ∧ t.refused = false) ∨
      ∃ off width rest, (width ≠ 4 ∨ off % 4 ≠ 0 ∨ 0x100 ≤ off) ∧
        (Spec.hostTurn s (.regRead off width) rest ∨ ∃ v, Spec.hostTurn s (.regWrite off width v) rest) ∧
        t.refused = true := by
  rcases access_refused_cases (Spec.passed s rest) op with hsame | ⟨rfl, hclear⟩ | ⟨off, width, hundef, hop, hset⟩
  · exact .inl hsame
  · exact .inr (.inl ⟨rest, h, hclear⟩)
  · refine .inr (.inr ⟨off, width, rest, ?_, ?_, hset⟩)
    · rw [regAccessDefined_iff] at hundef
      omega
    · rcases hop with rfl | ⟨v, rfl⟩
      · exact .inl h
      · exact .inr ⟨v, h⟩

/-- Settles O57, by whose turn the step is: only the host's access can touch a mark. -/
theorem marksSetAndCleared : Obligations.MarksSetAndCleared := by
  intro s t ht
  rcases turn_cases s with ⟨run, he, hw, -⟩ | ⟨op, rest, hs, hw, -⟩ | ⟨he, hs, -⟩
  · obtain ⟨c, rfl⟩ := step_engine_publishes he hw ht
    obtain ⟨hf, hr⟩ := publish_marks s c
    exact ⟨.inl hf, .inl hr⟩
  · have hturn : Spec.hostTurn s op rest := ⟨hs, hw⟩
    rw [step_hostTurn hturn] at ht
    cases ht
    exact ⟨hostTurn_faulted_cases hturn, hostTurn_refused_cases hturn⟩
  · rw [step_quiet he hs] at ht
    cases ht
    exact ⟨.inl rfl, .inl rfl⟩

end Sys2Proof.Machine

/-! ## Proofs: the encoding of command words -/

namespace Sys2Proof

/-- Settles O2: `decode_encode`, command by command; a tag below 256 fills IMM8 exactly. -/
theorem decodeEncodeRoundTrip : Obligations.DecodeEncodeRoundTrip :=
  fun _ h => decode_encode h

theorem decodePlain_eq_ok_iff {imm : Byte} {h : Bool} {i j : Instr} :
    decodePlain imm h j = .ok i ↔ j = i ∧ imm = 0 ∧ h = false := by
  unfold decodePlain
  split <;> simp_all

theorem decodePlain_eq_error_iff {imm : Byte} {h : Bool} {j : Instr} :
    (∃ e, decodePlain imm h j = .error e) ↔ imm ≠ 0 ∨ h = true := by
  by_cases hp : imm = 0 ∧ h = false
  · simp [decodePlain, hp]
  · rw [decodePlain, if_neg hp]
    simp only [Except.error.injEq, exists_eq', true_iff]
    rwa [← Bool.not_eq_false, ← not_and_or]

/-- The fields that decode to a command are exactly the ones its word is made of: a command without an operand demands a
zero there, and a tag is the whole of IMM8 (R85, R86). -/
theorem encode_of_decodeFields {opc : Nat} {imm : Byte} {h : Bool} {i : Instr}
    (hd : decodeFields opc imm h = .ok i) :
    encode i = commandWord opc imm.toNat h.toNat ∧ i.wellFormed = true := by
  unfold decodeFields at hd
  split at hd
  case h_2 => -- FRAME
    split at hd
    · cases hd; subst h; exact ⟨rfl, decide_eq_true imm.isLt⟩
    · cases hd
  case h_3 => -- LITERAL, both forms
    cases h with
    | false => cases hd; exact ⟨rfl, decide_eq_true imm.isLt⟩
    | true =>
      simp only [Bool.true_eq_false, if_false] at hd
      split at hd
      · cases hd; subst imm; exact ⟨rfl, rfl⟩
      · cases hd
  case h_10 => cases hd -- an unassigned OPC
  all_goals -- the commands without an operand
    obtain ⟨rfl, rfl, rfl⟩ := decodePlain_eq_ok_iff.1 hd
    exact ⟨rfl, rfl⟩

theorem decode_of_rsv_zero {v : Word} (h : rsvField v = 0) :
    decode v = decodeFields (opcField v).toNat (immField v) (hField v) := if_neg (not_not.2 h)

theorem decode_of_rsv_ne_zero {v : Word} (h : rsvField v ≠ 0) : decode v = .error .reservedBits := if_pos h

theorem encode_of_decode {v : Word} {i : Instr} (hd : decode v = .ok i) : encode i = v ∧ i.wellFormed = true := by
  by_cases hr : rsvField v = 0
  · rw [decode_of_rsv_zero hr] at hd
    obtain ⟨hword, hwf⟩ := encode_of_decodeFields hd
    exact ⟨hword.trans (eq_commandWord hr).symm, hwf⟩
  · rw [decode_of_rsv_ne_zero hr] at hd
    cases hd

/-- Settles O3: with RSV = 0 a word is the sum of its fields, and no field of a legal word is ignored. -/
theorem encodeDecodeRoundTrip : Obligations.EncodeDecodeRoundTrip :=
  fun _ _ hd => encode_of_decode hd

/-- The decoder and the encoder are inverse to each other on the well-formed commands. -/
theorem decode_eq_ok_iff {v : Word} {i : Instr} : decode v = .ok i ↔ v = encode i ∧ i.wellFormed = true := by
  constructor
  · intro hd
    obtain ⟨hword, hwf⟩ := encode_of_decode hd
    exact ⟨hword.symm, hwf⟩
  · rintro ⟨rfl, hwf⟩
    exact decode_encode hwf

/-! The illegal words (R87). -/

theorem decodeFields_eq_error_iff {opc : Nat} {imm : Byte} {h : Bool} :
    (∃ e, decodeFields opc imm h = .error e) ↔
      0x09 ≤ opc ∨ (opc ∈ [0, 3, 4, 5, 6, 7, 8] ∧ (imm ≠ 0 ∨ h = true)) ∨ (opc = 1 ∧ h = true) ∨
        (opc = 2 ∧ h = true ∧ imm ≠ 0) := by
  unfold decodeFields
  split
  case h_2 => -- FRAME
    cases h <;> simp
  case h_3 => -- LITERAL, both forms
    cases h with
    | false => simp
    | true => by_cases hi : imm = 0#8 <;> simp [hi]
  case h_10 => -- an unassigned OPC
    have hopc : 0x09 ≤ opc := by grind
    exact iff_of_true ⟨_, rfl⟩ (.inl hopc)
  all_goals -- the commands without an operand
    rw [decodePlain_eq_error_iff]
    simp

theorem immField_ne_zero_iff {v : Word} : immField v ≠ 0 ↔ v.toNat / 256 % 256 ≠ 0 := by
  rw [← toNat_immField, ne_eq, ne_eq, BitVec.toNat_eq]
  rfl

theorem hField_eq_true_iff {v : Word} : hField v = true ↔ v.toNat / 65536 % 2 = 1 := by
  rw [hField_eq, decide_eq_true_iff]

theorem rsvField_eq_zero_iff {v : Word} : rsvField v = 0 ↔ v.toNat / 131072 = 0 := by
  rw [← toNat_rsvField, BitVec.toNat_eq]
  rfl

namespace Machine

theorem step_illegal {s : State} {run : Running} {e : Illegal} (he : s.eng = .busy run)
    (hw : run.wait = 0 ∨ s.script = []) (hd : decode run.lat.cmd = .error e) :
    step s = .next (Spec.failed s 1 run.lat.cmd) := by
  rw [step_engine he hw, hd]
  rfl

end Machine

/-- Settles O4: a nonzero RSV is a class of its own, and otherwise the fields decide. -/
theorem illegalWordsEndWithError : Obligations.IllegalWordsEndWithError := by
  refine ⟨fun v => ?_, fun s run e he hw hd => Machine.step_illegal he hw hd⟩
  by_cases hr : rsvField v = 0
  · have hr' := rsvField_eq_zero_iff.1 hr
    have hh : v.toNat / 65536 % 2 ≠ 0 ↔ v.toNat / 65536 % 2 = 1 := by omega
    rw [decode_of_rsv_zero hr, decodeFields_eq_error_iff, toNat_opcField, immField_ne_zero_iff, hField_eq_true_iff, hh]
    simp only [hr', ne_eq, not_true_eq_false, false_or]
  · have hr' := mt rsvField_eq_zero_iff.2 hr
    exact iff_of_true ⟨_, decode_of_rsv_ne_zero hr⟩ (.inr (.inl hr'))

/-! The rows of opcode_table.json, as mask and match (R85). -/

theorem eq_commandWord_iff {v : Word} {opc tag : Nat} (ho : opc < 256) (ht : tag < 256) :
    v = commandWord opc tag 0 ↔
      (opcField v).toNat = opc ∧ (immField v).toNat = tag ∧ hField v = false ∧ rsvField v = 0 := by
  constructor
  · rintro rfl
    exact Laws.fields_commandWord ho ht
  · rintro ⟨rfl, rfl, hh, hr⟩
    have hv := eq_commandWord hr
    rwa [hh] at hv

/-- The mask of the two rows with a tag clears IMM8 and keeps the other fields. -/
theorem fields_and_tagMask (v : Word) :
    opcField (v &&& 0xFFFF00FF) = opcField v ∧ immField (v &&& 0xFFFF00FF) = 0 ∧
      hField (v &&& 0xFFFF00FF) = hField v ∧ rsvField (v &&& 0xFFFF00FF) = rsvField v := by
  refine ⟨?_, ?_, ?_, ?_⟩
  · rw [opcField, BitVec.extractLsb'_and]
    exact BitVec.and_allOnes
  · rw [immField, BitVec.extractLsb'_and]
    exact BitVec.and_zero
  · rw [hField, BitVec.getLsbD_and]
    exact Bool.and_true _
  · rw [rsvField, BitVec.extractLsb'_and]
    exact BitVec.and_allOnes

/-- Under the mask of a row with a tag, a word matches the row exactly when it is the row's command with the tag that
IMM8 holds. -/
theorem and_tagMask_eq_iff {v : Word} {opc : Nat} {i : Instr} (ho : opc < 256)
    (hw : encode i = commandWord opc (v.toNat / 256 % 256) 0) (hi : i.wellFormed = true) :
    v &&& 0xFFFF00FF = commandWord opc 0 0 ↔ decode v = .ok i := by
  obtain ⟨hopc, himm, hh, hrsv⟩ := fields_and_tagMask v
  rw [decode_eq_ok_iff, and_iff_left hi, hw, eq_commandWord_iff ho (by omega), eq_commandWord_iff ho (by omega), hopc,
    himm, hh, hrsv, toNat_immField]
  simp

/-- A row without a tag has the full mask, so one word matches it, that of its command. -/
theorem and_fullMask_eq_iff {v w : Word} {i : Instr} (hw : encode i = w) (hi : i.wellFormed = true) :
    v &&& 0xFFFFFFFF = w ↔ decode v = .ok i := by
  rw [decode_eq_ok_iff, hw, and_iff_left hi, show (0xFFFFFFFF : Word) = BitVec.allOnes 32 from rfl, BitVec.and_allOnes]

/-- Settles O5, row by row: eight rows have one word each, and the rows of FRAME and LITERAL have one for each tag. -/
theorem tableRowsMatchDecode : Obligations.TableRowsMatchDecode := by
  intro v
  have htag : v.toNat / 256 % 256 < 256 := by omega
  exact ⟨and_fullMask_eq_iff rfl rfl,
    and_tagMask_eq_iff (opc := 1) (by omega) rfl (decide_eq_true htag),
    and_tagMask_eq_iff (opc := 2) (by omega) rfl (decide_eq_true htag),
    and_fullMask_eq_iff rfl rfl, and_fullMask_eq_iff rfl rfl, and_fullMask_eq_iff rfl rfl, and_fullMask_eq_iff rfl rfl,
    and_fullMask_eq_iff rfl rfl, and_fullMask_eq_iff rfl rfl, and_fullMask_eq_iff rfl rfl⟩

/-- Settles O1: the legal words are the words of their commands, and the two others each have one stray bit. -/
theorem specWordsDecode : Obligations.SpecWordsDecode :=
  ⟨decode_encode (i := .nop) rfl, decode_encode (i := .frame 0xAC) rfl, decode_encode (i := .literal 0xAC) rfl,
    decode_encode (i := .literalNohdr) rfl, decode_encode (i := .mdcWrap) rfl, decode_encode (i := .cfbEnc) rfl,
    decode_encode (i := .crcInit) rfl, decode_encode (i := .crcUpdate) rfl, decode_encode (i := .radix64) rfl,
    decode_encode (i := .armor) rfl, rfl, rfl⟩

end Sys2Proof

/-! ## Proofs: the assembler -/

namespace Sys2Proof.Machine

/-- A word with a tag is OPC with the tag shifted to bits 15:8 (R81). -/
theorem commandWord_tag {opc tag : Nat} (ht : tag ≤ 255) :
    commandWord opc tag 0 = BitVec.ofNat 32 opc ||| BitVec.ofNat 32 tag <<< 8 := by
  apply BitVec.eq_of_toNat_eq
  simp only [commandWord, BitVec.toNat_or, BitVec.toNat_shiftLeft, BitVec.toNat_ofNat, Nat.zero_shiftLeft, Nat.or_zero,
    Nat.or_mod_two_pow, Nat.mod_eq_of_lt (show tag < 2 ^ 32 by omega)]

theorem assemble_of_tag {i : Instr} {opc tag : Nat} (hw : encode i = commandWord opc tag 0)
    (hi : i.wellFormed = decide (tag < 256)) :
    assemble i = if tag ≤ 255 then some (BitVec.ofNat 32 opc ||| BitVec.ofNat 32 tag <<< 8) else none := by
  rw [assemble, hi, hw]
  by_cases ht : tag ≤ 255
  · rw [if_pos ht, if_pos (decide_eq_true (by omega)), commandWord_tag ht]
  · rw [if_neg ht, if_neg (by simp; omega)]

/-- Settles O6: the two commands with a tag take their words from its bits, and the rest is evaluated. -/
theorem assemblerWords : Obligations.AssemblerWords :=
  ⟨fun _ => assemble_of_tag (opc := 1) rfl rfl, fun _ => assemble_of_tag (opc := 2) rfl rfl,
    rfl, rfl, rfl, rfl, rfl, rfl, rfl, rfl, by decide, by decide, by decide, by decide⟩

/-! ## Proofs: LITERAL.NOHDR -/

/-- A command that makes no draw and writes one byte string at DST_ADDR leaves the state of a success with that string
written (R40). -/
theorem publish_atDst (s : State) (l : Latched) (bytes : List Byte) :
    s.publish (.ok (.atDst l bytes)) = (Spec.succeeded s bytes.length).memWrite l.dstAddr.toNat bytes := rfl

/-- When the checks of R110 pass, LITERAL and LITERAL.NOHDR publish their packet at DST_ADDR. -/
theorem literalResult_of_pass {tag : Nat} {hdr : Bool} {s : State} {l : Latched} {body out : List Byte}
    (hbody : literalBody (s.memRead l.src) = body)
    (hout : (if hdr then frameBytes tag body.length ++ body else body) = out)
    (hsrc : Spec.fits s l.src) (hlen : out.length ≤ maxLen) (hdst : Spec.fits s (l.dst out.length))
    (hapart : Spec.apart l.src (l.dst out.length)) : literalResult tag hdr s l = .ok (.atDst l out) := by
  have hshort : (!hdr || decide (body.length ≤ maxLen)) = true := by
    cases hdr with
    | false => rfl
    | true =>
      have : body.length ≤ out.length := by simp [← hout]
      exact decide_eq_true (this.trans hlen)
  simp only [literalResult, hbody, hout]
  refine guarded_of_pass ?_ _
  simp only [List.mem_cons, List.not_mem_nil, or_false, forall_eq_or_imp, forall_eq]
  exact ⟨fits_iff.1 hsrc, hshort, decide_eq_true hlen, fits_iff.1 hdst, by rw [apart_iff.1 hapart]; rfl⟩

/-- Settles O17: the premises are the checks of R110, so the body is published. -/
theorem literalNohdrWritesBody : Obligations.LiteralNohdrWritesBody := by
  intro s run he l body hsrc hlen hdst hapart
  have hresult : resultOf .literalNohdr s l = .ok (.atDst l body) :=
    literalResult_of_pass rfl rfl hsrc hlen hdst hapart
  rw [exec_busy he, hresult, publish_atDst]

/-! ## Proofs: the poll of a `wait` -/

/-- BUSY is bit 0 of STATUS (R26). -/
theorem statusWord_busy (s : State) : s.statusWord.getLsbD 0 = s.busy := by
  rw [State.statusWord, BitVec.getLsbD_append]
  simp

/-- A poll returns STATUS, and keeps the `wait` first in the script while BUSY reads 1 (R94). -/
theorem access_wait (s : State) :
    s.access .wait = { s with
      script := if s.busy then .wait :: s.script else s.script
      readData := some (.word s.statusWord) } := by
  have hpoll : s.regRead 0x04 4 = { s with readData := some (.word s.statusWord) } := rfl
  simp only [State.access, hpoll, statusWord_busy]
  split <;> rfl

/-- Settles O60: the host step that has passed changes neither BUSY nor STATUS, so the poll reads those of the state
before. -/
theorem waitPollsStatus : Obligations.WaitPollsStatus := by
  intro s rest h
  rw [step_hostTurn h, access_wait]
  rfl

end Sys2Proof.Machine

/-! ## Proofs: the packet header -/

namespace Sys2Proof.Machine

/-- The last byte of a big-endian number is its remainder by 256; the bytes before it encode its quotient (R10). -/
theorem bigEndian_succ (n v : Nat) : bigEndian (n + 1) v = bigEndian n (v / 256) ++ [BitVec.ofNat 8 v] := by
  have hshift : ∀ i ∈ List.range n,
      BitVec.ofNat 8 (v >>> (8 * (n + 1 - 1 - i))) = BitVec.ofNat 8 ((v / 256) >>> (8 * (n - 1 - i))) := by
    intro i hi
    have hlt : i < n := List.mem_range.1 hi
    have hsum : 8 * (n + 1 - 1 - i) = 8 + 8 * (n - 1 - i) := by omega
    rw [hsum, Nat.shiftRight_add, Nat.shiftRight_eq_div_pow v]
  rw [bigEndian, List.range_succ, List.map_append, List.map_congr_left hshift]
  simp [bigEndian]

@[simp] theorem bigEndian_zero (v : Nat) : bigEndian 0 v = [] := rfl

/-- A big-endian number, read back after the value `acc`, is the number (R61). -/
theorem foldl_bigEndian (n acc : Nat) : ∀ v, v < 256 ^ n →
    (bigEndian n v).foldl (fun v b => 256 * v + b.toNat) acc = 256 ^ n * acc + v := by
  induction n with
  | zero =>
    intro v hv
    obtain rfl : v = 0 := by simpa using hv
    simp
  | succ n ih =>
    intro v hv
    rw [Nat.pow_succ] at hv
    rw [bigEndian_succ, List.foldl_append, ih (v / 256) (by omega), List.foldl_cons, List.foldl_nil, BitVec.toNat_ofNat]
    calc 256 * (256 ^ n * acc + v / 256) + v % 256
      _ = 256 ^ (n + 1) * acc + (256 * (v / 256) + v % 256) := by ring
      _ = 256 ^ (n + 1) * acc + v := by rw [Nat.div_add_mod]

theorem frameBytes_of_lt_256 {tag len : Nat} (h : len < 256) :
    frameBytes tag len = BitVec.ofNat 8 tag :: bigEndian 1 len := if_pos h

theorem frameBytes_of_lt_65536 {tag len : Nat} (h : 256 ≤ len) (h' : len < 65536) :
    frameBytes tag len = BitVec.ofNat 8 (tag + 1) :: bigEndian 2 len := by
  rw [frameBytes, if_neg (by omega), if_pos h']

theorem frameBytes_of_ge_65536 {tag len : Nat} (h : 65536 ≤ len) :
    frameBytes tag len = BitVec.ofNat 8 (tag + 2) :: bigEndian 4 len := by
  rw [frameBytes, if_neg (by omega), if_neg (by omega)]

/-- The length field of the header, read back, is the length (R103). -/
theorem foldl_drop_frameBytes {tag len : Nat} (h : len ≤ maxLen) :
    ((frameBytes tag len).drop 1).foldl (fun v b => 256 * v + b.toNat) 0 = len := by
  have hfield (n : Nat) (b : Byte) (hn : len < 256 ^ n) :
      ((b :: bigEndian n len).drop 1).foldl (fun v b => 256 * v + b.toNat) 0 = len := by
    rw [List.drop_one, List.tail_cons, foldl_bigEndian n 0 len hn, Nat.mul_zero, Nat.zero_add]
  rcases Nat.lt_or_ge len 256 with h1 | h1
  · rw [frameBytes_of_lt_256 h1, hfield 1 _ h1]
  · rcases Nat.lt_or_ge len 65536 with h2 | h2
    · rw [frameBytes_of_lt_65536 h1 h2, hfield 2 _ h2]
    · rw [frameBytes_of_ge_65536 h2, hfield 4 _ (Nat.lt_succ_of_le h)]

/-- Settles O15: after its first byte the header is the length, big-endian, in 1, 2 or 4 bytes. -/
theorem frameHeaderReparses : Obligations.FrameHeaderReparses := by
  intro tag L hL
  refine ⟨?_, ?_, ?_, foldl_drop_frameBytes hL⟩ <;>
  · rw [length_frameBytes]
    split_ifs <;> omega

/-! ## Proofs: FRAME -/

theorem ofNat_mod_256 (n : Nat) : BitVec.ofNat 8 (n % 256) = BitVec.ofNat 8 n :=
  BitVec.eq_of_toNat_eq (by simp)

/-- When the header's range is in BUF, FRAME publishes the header at DST_ADDR (R100). -/
theorem exec_frame_of_fits {s : State} {run : Running} {tag : Nat} {hdr : List Byte} (he : s.eng = .busy run)
    (hhdr : frameBytes tag run.lat.srcLen.toNat = hdr) (hfit : Spec.fits s ⟨run.lat.dstAddr.toNat, hdr.length⟩) :
    exec (.frame tag) s = .next ((Spec.succeeded s hdr.length).memWrite run.lat.dstAddr.toNat hdr) := by
  have hresult : resultOf (.frame tag) s run.lat = .ok (.atDst run.lat hdr) := by
    subst hhdr
    exact guarded_of_pass (List.forall_mem_singleton.2 (fits_iff.1 hfit)) _
  rw [exec_busy he, hresult, publish_atDst]

/-- Settles O14, by the width of the length field. -/
theorem frameWritesHeader : Obligations.FrameWritesHeader := by
  intro s run tag he d L
  simp only [ofNat_mod_256]
  refine ⟨fun h hfit => exec_frame_of_fits (hdr := [_, _]) he ?_ hfit,
    fun h h' hfit => exec_frame_of_fits (hdr := [_, _, _]) he ?_ hfit,
    fun h hfit => exec_frame_of_fits (hdr := [_, _, _, _, _]) he ?_ hfit⟩
  · rw [frameBytes_of_lt_256 h]; rfl
  · rw [frameBytes_of_lt_65536 h h']; simp [bigEndian_succ, L]
  · rw [frameBytes_of_ge_65536 h]; simp [bigEndian_succ, L, Nat.div_div_eq_div_mul]

/-! ## Proofs: line-ending normalization -/

/-- A pair at the front of a text is its first two bytes. -/
theorem hasCrLf_cons (x : Byte) (t : List Byte) :
    hasCrLf (x :: t) = true ↔ (x = cr ∧ t[0]? = some lf) ∨ hasCrLf t = true := by
  cases t <;> simp [hasCrLf]

theorem hasPair_cons (x : Byte) (t : List Byte) :
    Spec.hasPair (x :: t) ↔ (x = cr ∧ t[0]? = some lf) ∨ Spec.hasPair t := by
  constructor
  · rintro ⟨i, hi, hcr, hlf⟩
    cases i with
    | zero => exact .inl ⟨Option.some.inj hcr, hlf⟩
    | succ i => exact .inr ⟨i, by simpa using hi, hcr, hlf⟩
  · rintro (⟨rfl, hlf⟩ | ⟨i, hi, hcr, hlf⟩)
    · exact ⟨0, by simp, rfl, hlf⟩
    · exact ⟨i + 1, by simpa using hi, hcr, hlf⟩

/-- The model's scan for a pair finds one exactly when some index holds one (R112). -/
theorem hasCrLf_iff {t : List Byte} : hasCrLf t = true ↔ Spec.hasPair t := by
  induction t with
  | nil => simp [hasCrLf]
  | cons x t ih => rw [hasCrLf_cons, hasPair_cons, ih]

/-- What one byte becomes in a text with no pair (R112). -/
def crLfOf (b : Byte) : List Byte := if b = lf then [cr, lf] else [b]

theorem normalizeText_of_pair {t : List Byte} (h : Spec.hasPair t) : normalizeText t = t := if_pos (hasCrLf_iff.2 h)

theorem normalizeText_of_no_pair {t : List Byte} (h : ¬ Spec.hasPair t) : normalizeText t = t.flatMap crLfOf :=
  if_neg (mt hasCrLf_iff.1 h)

/-- Settles O18: the two branches of normalizing, with the model's scan read as the statement's index. -/
theorem normalizeRewritesLoneLf : Obligations.NormalizeRewritesLoneLf := fun _ =>
  ⟨normalizeText_of_pair, normalizeText_of_no_pair⟩

theorem hasPair_append_pair (a b : List Byte) : Spec.hasPair (a ++ cr :: lf :: b) :=
  ⟨a.length, by simp, by simp [cr], by simp [lf]⟩

/-- Rewriting leaves a pair behind wherever there was an LF. -/
theorem hasPair_flatMap_crLfOf {t : List Byte} (h : lf ∈ t) : Spec.hasPair (t.flatMap crLfOf) := by
  obtain ⟨a, b, rfl⟩ := List.append_of_mem h
  rw [List.flatMap_append, List.flatMap_cons]
  exact hasPair_append_pair _ _

theorem flatMap_crLfOf_of_no_lf {t : List Byte} (h : lf ∉ t) : t.flatMap crLfOf = t := by
  induction t with
  | nil => rfl
  | cons b t ih =>
    obtain ⟨hb, ht⟩ := not_or.1 (mt List.mem_cons.2 h)
    rw [List.flatMap_cons, ih ht, crLfOf, if_neg (Ne.symm hb), List.singleton_append]

/-- Settles O19: a rewritten LF leaves a pair, which the second pass keeps; where no LF stands, nothing is rewritten. -/
theorem normalizeIdempotent : Obligations.NormalizeIdempotent := by
  intro t
  by_cases hpair : Spec.hasPair t
  · rw [normalizeText_of_pair hpair, normalizeText_of_pair hpair]
  · rw [normalizeText_of_no_pair hpair]
    by_cases hlf : lf ∈ t
    · exact normalizeText_of_pair (hasPair_flatMap_crLfOf hlf)
    · rw [flatMap_crLfOf_of_no_lf hlf, normalizeText_of_no_pair hpair, flatMap_crLfOf_of_no_lf hlf]

/-- Each LF that is rewritten adds one byte. -/
theorem length_flatMap_crLfOf (t : List Byte) : (t.flatMap crLfOf).length = t.length + t.count lf := by
  induction t with
  | nil => rfl
  | cons b t ih =>
    rw [List.flatMap_cons, List.length_append, ih, List.count_cons, List.length_cons, crLfOf]
    by_cases hb : b = lf
    · simp [hb]; omega
    · simp [hb]; omega

theorem length_normalizeText (t : List Byte) :
    (normalizeText t).length = if Spec.hasPair t then t.length else t.length + t.count lf := by
  split_ifs with h
  · rw [normalizeText_of_pair h]
  · rw [normalizeText_of_no_pair h, length_flatMap_crLfOf]

/-! ## Proofs: LITERAL, and the result length of a success -/

/-- A command that sets DONE has succeeded, and RES_LEN is its result length (R29, R40). -/
theorem resLen_of_done {s t : State} {run : Running} {i : Instr} (he : s.eng = .busy run) (hs : s.done = false)
    (h : exec i s = .next t) (ht : t.done = true) : t.resLen.toNat = Spec.resultLength s run.lat i := by
  rw [exec_busy he] at h
  cases h
  rcases publish_cases s (resultOf i s run.lat) with ⟨o, ho, hp⟩ | ⟨e, -, hp⟩
  · have hshort : o.resLen ≤ maxLen := (resultOf_ok ho).short
    rw [hp, ← (resultOf_ok_length ho).2]
    exact Nat.mod_eq_of_lt (by simp only [maxLen] at hshort; omega)
  · have hdrew : (if (resultOf i s run.lat).drew then s.consumeDraw else s).done = s.done := by split <;> rfl
    rw [hp, State.errorEntry_done, hdrew, hs] at ht
    cases ht

/-- Settles O20: RES_LEN is the result length of the command, for both forms (R114). -/
theorem literalPacketLength : Obligations.LiteralPacketLength := by
  refine ⟨length_normalizeText, fun s t run i he hs h ht => ⟨?_, ?_⟩⟩
  · rintro ⟨tag, rfl⟩
    exact resLen_of_done he hs h ht
  · rintro rfl
    exact resLen_of_done he hs h ht

/-- Settles O16: the premises are the checks of R110, so the framed packet is published. -/
theorem literalWritesPacket : Obligations.LiteralWritesPacket := by
  intro s run tag he l body out hsrc hlen hdst hapart
  have hresult : resultOf (.literal tag) s l = .ok (.atDst l out) :=
    literalResult_of_pass rfl rfl hsrc hlen hdst hapart
  rw [exec_busy he, hresult, publish_atDst]

end Sys2Proof.Machine

/-! ## Proofs: MDC_WRAP -/

namespace Sys2Proof.Machine

/-- The bytes that MDC_WRAP writes under the prefix R, the packet being the bytes at SRC (R133). -/
def mdcBytes (s : State) (l : Latched) (r : Block) : List Byte :=
  mdcStream Config.H s.params.mdcTag r (s.memRead l.src)

@[simp] theorem length_mdcBytes (s : State) (l : Latched) (r : Block) :
    (mdcBytes s l r).length = l.srcLen.toNat + 40 := by
  simp [mdcBytes, Latched.src]

/-- MDC_WRAP is its checks, and then the stream at DST_ADDR, whose length is the one the checks were made for. -/
theorem mdcResult_eq (s : State) (l : Latched) :
    mdcResult s l = guarded (plainChecks s l (l.srcLen.toNat + 40))
      (if l.pfxsel then .ok (.atDst l (mdcBytes s l l.pfx)) else withDraw s fun r => .atDst l (mdcBytes s l r)) := by
  simp only [Output.atDst, length_mdcBytes]
  rfl

theorem guarded_plainChecks_of_pass {s : State} {l : Latched} {m : Nat} (hsrc : Spec.fits s l.src) (hlen : m ≤ maxLen)
    (hdst : Spec.fits s (l.dst m)) (hapart : Spec.apart l.src (l.dst m)) (k : Completed) :
    guarded (plainChecks s l m) k = k := by
  refine guarded_of_pass ?_ k
  simp only [plainChecks, List.mem_cons, List.not_mem_nil, or_false, forall_eq_or_imp, forall_eq]
  exact ⟨fits_iff.1 hsrc, decide_eq_true hlen, fits_iff.1 hdst, by rw [apart_iff.1 hapart]; rfl⟩

/-- As `publish_atDst`, for a command that has made its draw (R16). -/
theorem publish_atDst_drawn (s : State) (l : Latched) (bytes : List Byte) :
    s.publish ⟨true, .ok (.atDst l bytes)⟩ =
      (Spec.succeeded s.consumeDraw bytes.length).memWrite l.dstAddr.toNat bytes := rfl

/-- Settles O21: the checks pass, and the stream under the latched PFX is published. -/
theorem mdcWrapFixedPrefix : Obligations.MdcWrapFixedPrefix := by
  intro s run he hpfx l n hashed hsrc hlen hdst hapart
  have hresult : resultOf .mdcWrap s l = .ok (.atDst l (mdcBytes s l l.pfx)) := by
    rw [resultOf, mdcResult_eq, guarded_plainChecks_of_pass hsrc hlen hdst hapart, if_pos hpfx]
  rw [exec_busy he, hresult, publish_atDst, length_mdcBytes]
  rfl

/-- Settles O22: the checks pass, so the draw decides: the stream under its answer, or the error RANDOM. -/
theorem mdcWrapDrawnPrefix : Obligations.MdcWrapDrawnPrefix := by
  intro s run he hpfx l n hsrc hlen hdst hapart
  have hresult : resultOf .mdcWrap s l = withDraw s fun r => .atDst l (mdcBytes s l r) := by
    rw [resultOf, mdcResult_eq, guarded_plainChecks_of_pass hsrc hlen hdst hapart, if_neg (by simp [l, hpfx])]
  rw [exec_busy he, hresult]
  refine ⟨fun r hr => ?_, fun hr => ?_⟩
  · rw [withDraw, hr, publish_atDst_drawn, length_mdcBytes]
    rfl
  · rw [withDraw, hr]
    rfl

/-! The written stream read back from BUF. -/

/-- A byte read at an offset into a written string is the byte of the string at that offset. -/
theorem readByte_memWrite_add (s : State) (a : Nat) {bs : List Byte} {k : Nat} (h : k < bs.length) :
    (s.memWrite a bs).readByte (a + k) = bs[k] := by
  rw [State.readByte_memWrite, dif_pos ⟨by omega, by omega⟩]
  simp only [Nat.add_sub_cancel_left]

/-- A part of a written string is read back from where it was written. -/
theorem memRead_memWrite_part (s : State) (a : Nat) (pre part post : List Byte) :
    (s.memWrite a (pre ++ part ++ post)).memRead ⟨a + pre.length, part.length⟩ = part := by
  refine List.ext_getElem (State.length_memRead ..) fun i _ hi => ?_
  have hlt : pre.length + i < (pre ++ part ++ post).length := by simp only [List.length_append]; omega
  rw [State.getElem_memRead, Nat.add_assoc, readByte_memWrite_add s a hlt]
  simp [hi]

/-- BUF just after the stream under R has been written at DST_ADDR. -/
def mdcWritten (s : State) (l : Latched) (r : Block) : State := s.memWrite l.dstAddr.toNat (mdcBytes s l r)

/-- The digest's input: prefix, packet and sentinel (R132). -/
def mdcInput (s : State) (l : Latched) (r : Block) : List Byte := mdcHashed s.params.mdcTag r (s.memRead l.src)

theorem memRead_mdcWritten_input (s : State) (l : Latched) (r : Block) :
    (mdcWritten s l r).memRead ⟨l.dstAddr.toNat, l.srcLen.toNat + 20⟩ = mdcInput s l r := by
  have hlen : (mdcInput s l r).length = l.srcLen.toNat + 20 := by simp [mdcInput, Latched.src]
  rw [← hlen]
  exact memRead_memWrite_part s l.dstAddr.toNat [] (mdcInput s l r) (Config.H (mdcInput s l r)).toList

theorem memRead_mdcWritten_digest (s : State) (l : Latched) (r : Block) :
    (mdcWritten s l r).memRead ⟨l.dstAddr.toNat + l.srcLen.toNat + 20, 20⟩ = (Config.H (mdcInput s l r)).toList := by
  have hpart := memRead_memWrite_part s l.dstAddr.toNat (mdcInput s l r) (Config.H (mdcInput s l r)).toList []
  have hlen : (mdcInput s l r).length = l.srcLen.toNat + 20 := by simp [mdcInput, Latched.src]
  rwa [List.append_nil, hlen, Vector.length_toList, ← Nat.add_assoc] at hpart

theorem memRead_mdcWritten_packet (s : State) (l : Latched) (r : Block) :
    (mdcWritten s l r).memRead ⟨l.dstAddr.toNat + 18, l.srcLen.toNat⟩ = s.memRead l.src := by
  have hpart := memRead_memWrite_part s l.dstAddr.toNat (mdcPrefix r) (s.memRead l.src)
    ([s.params.mdcTag.1, s.params.mdcTag.2] ++ (Config.H (mdcInput s l r)).toList)
  rwa [← List.append_assoc, length_mdcPrefix, State.length_memRead] at hpart

/-- Bytes 16 and 17 of the output repeat bytes 14 and 15 (R131). -/
theorem readByte_mdcWritten_echo (s : State) (l : Latched) (r : Block) :
    (mdcWritten s l r).readByte (l.dstAddr.toNat + 16) = (mdcWritten s l r).readByte (l.dstAddr.toNat + 14) ∧
      (mdcWritten s l r).readByte (l.dstAddr.toNat + 17) = (mdcWritten s l r).readByte (l.dstAddr.toNat + 15) := by
  have hbyte : ∀ k (hk : k < 40), (mdcWritten s l r).readByte (l.dstAddr.toNat + k) =
      (mdcBytes s l r)[k]'(by simp; omega) := fun k hk => readByte_memWrite_add s _ (by simp; omega)
  rw [hbyte 16 (by omega), hbyte 14 (by omega), hbyte 17 (by omega), hbyte 15 (by omega)]
  simp [mdcBytes, mdcStream, mdcHashed, mdcPrefix]

/-- A command that sets DONE has succeeded, and BUF holds what it wrote (R40). -/
theorem result_ok_of_done {s t : State} {run : Running} {i : Instr} (he : s.eng = .busy run) (hs : s.done = false)
    (h : exec i s = .next t) (ht : t.done = true) :
    ∃ o, (resultOf i s run.lat).result = .ok o ∧ t.buf = Memory.putAll s.buf o.writes ∧ t.bufEpoch = s.bufEpoch := by
  rw [exec_busy he] at h
  cases h
  rcases publish_cases s (resultOf i s run.lat) with ⟨o, ho, hp⟩ | ⟨e, -, hp⟩
  · exact ⟨o, ho, by rw [hp, State.completeOk_buf]; split <;> rfl, by rw [publish_frame]⟩
  · have hdone : (s.publish (resultOf i s run.lat)).done = s.done := by
      rw [hp, State.errorEntry_done]; split <;> rfl
    rw [hdone, hs] at ht
    cases ht

/-- Every success of MDC_WRAP writes the stream of some prefix R, from PFX or drawn. -/
theorem mdcResult_ok_bytes {s : State} {l : Latched} {o : Output} (h : (mdcResult s l).result = .ok o) :
    ∃ r, o = .atDst l (mdcBytes s l r) := by
  rw [mdcResult_eq] at h
  obtain ⟨-, hk⟩ := guarded_ok h
  split at hk
  · cases hk; exact ⟨_, rfl⟩
  · obtain ⟨r, -, ho⟩ := withDraw_ok hk; exact ⟨r, ho⟩

/-- After a success of MDC_WRAP every byte of BUF is the one that writing the stream at DST_ADDR leaves. -/
theorem readByte_of_mdcWrap_done {s t : State} {run : Running} (he : s.eng = .busy run) (hs : s.done = false)
    (h : exec .mdcWrap s = .next t) (ht : t.done = true) :
    ∃ r, ∀ a, t.readByte a = (mdcWritten s run.lat r).readByte a := by
  obtain ⟨o, ho, hbuf, hepoch⟩ := result_ok_of_done he hs h ht
  obtain ⟨r, rfl⟩ := mdcResult_ok_bytes ho
  exact ⟨r, State.readByte_congr hbuf hepoch⟩

/-- Settles O23: BUF reads as the written stream of some R, and each part of it is read back. -/
theorem mdcDigestVerifies : Obligations.MdcDigestVerifies := by
  intro s t run he hs h ht d n
  obtain ⟨r, hbyte⟩ := readByte_of_mdcWrap_done he hs h ht
  have hread : ∀ q, t.memRead q = (mdcWritten s run.lat r).memRead q := fun q => State.memRead_congr fun a _ => hbyte a
  obtain ⟨hecho, hecho'⟩ := readByte_mdcWritten_echo s run.lat r
  simp only [hread, hbyte]
  refine ⟨?_, hecho, hecho', memRead_mdcWritten_packet s run.lat r⟩
  rw [memRead_mdcWritten_input, memRead_mdcWritten_digest]

end Sys2Proof.Machine

/-! ## Proofs: CFB_ENC -/

namespace Sys2Proof.Machine

/-- The untruncated ciphertext, block by block (R153). -/
def cfbCipherBlocks (enc : Block → Block) (p : List Byte) : List Block :=
  cfbChain enc zeroBlock ((List.range (cfbBlocks p.length)).map (cfbChunk p))

/-- The feedback register before chunk i, read off the ciphertext: zero, then the chunk before (R152, R153, R159). -/
def ciphertextFeedback (ct : List Byte) : Nat → Block
  | 0 => zeroBlock
  | i + 1 => cfbChunk ct i

theorem getElem_xorBlock (x y : Block) (j : Fin 16) : (xorBlock x y)[j] = x[j] ^^^ y[j] := by
  simp [xorBlock]

/-- A byte kept by the truncation is a byte of its block (R154). -/
theorem getElem?_take_flatMap_blocks (cs : List Block) {n i : Nat} {j : Fin 16} (h : 16 * i + j.val < n) :
    ((cs.flatMap Vector.toList).take n)[16 * i + j.val]? = (cs[i]?).map fun b => b[j] := by
  rw [List.getElem?_take_of_lt h, getElem?_flatMap_blocks]

theorem getElem?_cfbEncrypt (enc : Block → Block) {p : List Byte} {i : Nat} {j : Fin 16}
    (h : 16 * i + j.val < p.length) :
    (cfbEncrypt enc p)[16 * i + j.val]? = ((cfbCipherBlocks enc p)[i]?).map fun b => b[j] :=
  getElem?_take_flatMap_blocks _ h

theorem getElem?_cfbCipherBlocks (enc : Block → Block) {p : List Byte} {i : Nat} (h : 16 * i < p.length) :
    (cfbCipherBlocks enc p)[i]? =
      some (xorBlock (enc (feedback zeroBlock (cfbCipherBlocks enc p) i)) (cfbChunk p i)) := by
  rw [cfbCipherBlocks, getElem?_cfbChain, getElem?_chunks p i h, Option.map_some]

/-- A full chunk of the ciphertext is the block that was fed back. -/
theorem getElem?_cfbCipherBlocks_full (enc : Block → Block) {p : List Byte} {i : Nat}
    (h : 16 * (i + 1) ≤ p.length) :
    (cfbCipherBlocks enc p)[i]? = some (cfbChunk (cfbEncrypt enc p) i) := by
  have hb := getElem?_cfbCipherBlocks enc (p := p) (i := i) (by omega)
  rw [hb, Option.some_inj]
  refine Vector.ext fun j hj => ?_
  have hbyte := getElem?_cfbEncrypt enc (p := p) (i := i) (j := ⟨j, hj⟩) (by simp only; omega)
  rw [hb] at hbyte
  exact (getElem_cfbChunk _ i ⟨j, hj⟩ _ hbyte).symm

theorem feedback_cfbCipherBlocks (enc : Block → Block) {p : List Byte} {i : Nat} (h : 16 * i ≤ p.length) :
    feedback zeroBlock (cfbCipherBlocks enc p) i = ciphertextFeedback (cfbEncrypt enc p) i := by
  cases i with
  | zero => rfl
  | succ i => rw [feedback, getElem?_cfbCipherBlocks_full enc h]; rfl

/-- The recurrence of R153 on bytes. -/
theorem cfbEncrypt_byte (enc : Block → Block) {p : List Byte} {i : Nat} {j : Fin 16} {x : Byte}
    (h : p[16 * i + j.val]? = some x) :
    (cfbEncrypt enc p)[16 * i + j.val]? = some ((enc (ciphertextFeedback (cfbEncrypt enc p) i))[j] ^^^ x) := by
  obtain ⟨hlt, -⟩ := List.getElem?_eq_some_iff.1 h
  rw [getElem?_cfbEncrypt enc hlt, getElem?_cfbCipherBlocks enc (by omega), Option.map_some, getElem_xorBlock,
    getElem_cfbChunk p i j x h, feedback_cfbCipherBlocks enc (by omega)]

/-- The decryptor of R159 on bytes: its feedback is the ciphertext's. -/
theorem cfbDecrypt_byte (enc : Block → Block) {ct : List Byte} {i : Nat} {j : Fin 16} {y : Byte}
    (h : ct[16 * i + j.val]? = some y) :
    (cfbDecrypt enc ct)[16 * i + j.val]? = some ((enc (ciphertextFeedback ct i))[j] ^^^ y) := by
  obtain ⟨hlt, -⟩ := List.getElem?_eq_some_iff.1 h
  have hfr : feedback zeroBlock ((List.range (cfbBlocks ct.length)).map (cfbChunk ct)) i = ciphertextFeedback ct i := by
    cases i with
    | zero => rfl
    | succ i => rw [feedback, getElem?_chunks ct i (by omega)]; rfl
  simp only [cfbDecrypt]
  rw [getElem?_take_flatMap_blocks _ hlt, getElem?_cfbUnchain, getElem?_chunks ct i (by omega), Option.map_some,
    Option.map_some, getElem_xorBlock, getElem_cfbChunk ct i j y h, hfr]

/-- Every position is one of 16 in its chunk. -/
theorem exists_chunk_index (m : Nat) : ∃ (i : Nat) (j : Fin 16), m = 16 * i + j.val :=
  ⟨m / 16, ⟨m % 16, by omega⟩, by simp only; omega⟩

/-- Settles O25: the feedback of the recurrence is the ciphertext chunk that the statement writes out. -/
theorem cfbBlockStep : Obligations.CfbBlockStep := by
  intro enc p
  refine ⟨length_cfbEncrypt enc p, fun i j x hx => ?_⟩
  intro fr
  have hfr : fr = ciphertextFeedback (cfbEncrypt enc p) i := by
    cases i with
    | zero => exact Vector.ext fun k hk => by simp [fr, ciphertextFeedback, zeroBlock]
    | succ i => rfl
  rw [hfr]
  exact cfbEncrypt_byte enc hx

/-- Settles O26: encryptor and decryptor xor each byte with the same byte of E, since both feed back the ciphertext. -/
theorem cfbDecryptInverts : Obligations.CfbDecryptInverts := by
  intro enc p
  refine List.ext_getElem (by simp) fun m _ hm => ?_
  obtain ⟨i, j, rfl⟩ := exists_chunk_index m
  have hdec := cfbDecrypt_byte enc (cfbEncrypt_byte enc (List.getElem?_eq_getElem hm))
  obtain ⟨_, hbyte⟩ := List.getElem?_eq_some_iff.1 hdec
  rw [hbyte, ← BitVec.xor_assoc, BitVec.xor_self, BitVec.zero_xor]

/-- With the same feedback before chunk i, the bytes of chunk i that both plaintexts have are encrypted alike. -/
theorem getElem?_cfbEncrypt_take_of_feedback (enc : Block → Block) {p : List Byte} {k i : Nat} {j : Fin 16}
    (hk : k ≤ p.length) (hj : 16 * i + j.val < k)
    (hfr : ciphertextFeedback (cfbEncrypt enc (p.take k)) i = ciphertextFeedback (cfbEncrypt enc p) i) :
    (cfbEncrypt enc (p.take k))[16 * i + j.val]? = (cfbEncrypt enc p)[16 * i + j.val]? := by
  have hx := List.getElem?_eq_getElem (show 16 * i + j.val < p.length by omega)
  rw [cfbEncrypt_byte enc hx, cfbEncrypt_byte enc ((List.getElem?_take_of_lt hj).trans hx), hfr]

/-- A byte of the ciphertext depends on no plaintext byte behind it, by induction on its chunk. -/
theorem getElem?_cfbEncrypt_take (enc : Block → Block) {p : List Byte} {k : Nat} (hk : k ≤ p.length) (i : Nat) :
    ∀ j : Fin 16, 16 * i + j.val < k →
      (cfbEncrypt enc (p.take k))[16 * i + j.val]? = (cfbEncrypt enc p)[16 * i + j.val]? := by
  induction i with
  | zero => exact fun j hj => getElem?_cfbEncrypt_take_of_feedback enc hk hj rfl
  | succ i ih =>
    intro j hj
    have hchunk : cfbChunk (cfbEncrypt enc (p.take k)) i = cfbChunk (cfbEncrypt enc p) i :=
      congrArg Vector.ofFn <| funext fun j' => by simp only [List.getD, ih j' (by omega)]
    exact getElem?_cfbEncrypt_take_of_feedback enc hk hj hchunk

/-- Settles O27, byte by byte. -/
theorem cfbPrefixLaw : Obligations.CfbPrefixLaw := by
  intro enc p k hk
  refine List.ext_getElem? fun m => ?_
  obtain ⟨i, j, rfl⟩ := exists_chunk_index m
  by_cases hm : 16 * i + j.val < k
  · rw [getElem?_cfbEncrypt_take enc hk i j hm, List.getElem?_take_of_lt hm]
  · rw [List.getElem?_eq_none (by simp; omega), List.getElem?_eq_none (by simp; omega)]

/-! The four ends of CFB_ENC (R150, R156). -/

section ends
variable {s : State} {l : Latched}

theorem publish_cfbResult_error {e : Err} (h : firstError (cfbChecks s l) = some e) :
    s.publish (cfbResult s l) = s.errorEntry e := by
  rw [cfbResult, guarded, h]
  rfl

theorem publish_cfbResult_undrawn (h : firstError (cfbChecks s l) = none) (ha : s.params.auxDraw = false) :
    s.publish (cfbResult s l) = s.completeOk (cfbOutput s l) := by
  rw [cfbResult, guarded, h, ha]
  rfl

/-- The draw is discarded: what is published is the result computed before it. -/
theorem publish_cfbResult_drawn {r : Block} (h : firstError (cfbChecks s l) = none) (ha : s.params.auxDraw = true)
    (hr : s.rng = some r) : s.publish (cfbResult s l) = s.consumeDraw.completeOk (cfbOutput s.consumeDraw l) := by
  rw [cfbResult, guarded, h, ha]
  simp only [if_true, withDraw, hr]
  rfl

theorem publish_cfbResult_failed (h : firstError (cfbChecks s l) = none) (ha : s.params.auxDraw = true)
    (hr : s.rng = none) : s.publish (cfbResult s l) = s.consumeDraw.errorEntry .random := by
  rw [cfbResult, guarded, h, ha]
  simp only [if_true, withDraw, hr]
  rfl

theorem firstError_cfbChecks_eq_none_iff : firstError (cfbChecks s l) = none ↔
    Spec.fits s l.src ∧ Spec.fits s (l.dst l.srcLen.toNat) ∧ Spec.apart l.src (l.dst l.srcLen.toNat) := by
  rw [firstError_eq_none, fits_iff, fits_iff, apart_iff]
  simp [cfbChecks]

end ends

/-- Settles O24: the checks pass, and the draw, where there is one, decides between the success and RANDOM. -/
theorem cfbEncCompletes : Obligations.CfbEncCompletes := by
  intro s run he l n out after hsrc hdst hapart
  have hpass : firstError (cfbChecks s l) = none := firstError_cfbChecks_eq_none_iff.2 ⟨hsrc, hdst, hapart⟩
  rw [exec_busy he, resultOf]
  refine ⟨fun ha => ?_, fun ha hr => ?_, fun ha hr => ?_⟩
  · rw [publish_cfbResult_undrawn hpass ha]
    rfl
  · obtain ⟨r, hr⟩ := Option.ne_none_iff_exists'.1 hr
    rw [publish_cfbResult_drawn hpass ha hr]
    rfl
  · rw [publish_cfbResult_failed hpass ha hr]
    rfl

/-! The state machine of R161. -/

/-- k transitions take the engine to its end, with the PGE in the state t. -/
def CfbRun.EndsIn (l : Latched) (k : Nat) (c : CfbRun) (t : State) : Prop :=
  (cfbTransitions l k c).phase = .idle ∧ (cfbTransitions l k c).pge = t

theorem CfbRun.endsIn_succ {l : Latched} {k : Nat} {c : CfbRun} {t : State} :
    c.EndsIn l (k + 1) t ↔ (cfbTransition l c).EndsIn l k t := Iff.rfl

theorem CfbRun.EndsIn.of_idle {l : Latched} {k : Nat} {c : CfbRun} (h : c.phase = .idle) : c.EndsIn l k c.pge := by
  rw [EndsIn, cfbTransitions_idle l k c h]
  exact ⟨h, rfl⟩

section engine
variable (l : Latched) (u : State)

/-- The ciphertext of the bytes at SRC under the latched key. -/
def cfbCiphertext : List Byte := cfbEncrypt (Config.E l.key) (u.memRead l.src)

@[simp] theorem length_cfbCiphertext : (cfbCiphertext l u).length = l.srcLen.toNat := by
  simp [cfbCiphertext, Latched.src]

/-- The chunk of SRC that the BLOCK step reads, zero-padded (R151). -/
def CfbRun.chunkRead (c : CfbRun) : Block := Vector.ofFn fun j : Fin 16 =>
  if 16 * c.i + j < l.srcLen.toNat then c.pge.readByte (l.srcAddr.toNat + (16 * c.i + j)) else 0

/-- The ciphertext block that the BLOCK step makes (R153). -/
def CfbRun.blockOut (c : CfbRun) : Block := xorBlock (Config.E l.key c.fr) (c.chunkRead l)

/-- The engine after k block steps from the state `u` that SETUP was entered with: k chunks of the ciphertext stand at
DST, and FR holds the last of them. -/
def CfbRun.afterBlocks (k : Nat) : CfbRun where
  phase := if k < cfbBlocks l.srcLen.toNat then .block else .finish
  fr := feedback zeroBlock (cfbCipherBlocks (Config.E l.key) (u.memRead l.src)) k
  i := k
  pge := u.memWrite l.dstAddr.toNat ((cfbCiphertext l u).take (16 * k))

theorem State.memWrite_append (a : Nat) (xs ys : List Byte) :
    u.memWrite a (xs ++ ys) = (u.memWrite a xs).memWrite (a + xs.length) ys := by
  simp only [State.memWrite, Memory.putBytes_append]

variable {l u}

theorem cfbTransition_setup {c : CfbRun} (h : c.phase = .setup) :
    cfbTransition l c = CfbRun.afterBlocks l c.pge 0 := by
  rw [cfbTransition, h]
  rfl

theorem cfbTransition_block {c : CfbRun} (h : c.phase = .block) :
    cfbTransition l c = {
      phase := if c.i + 1 < cfbBlocks l.srcLen.toNat then .block else .finish
      fr := c.blockOut l
      i := c.i + 1
      pge := c.pge.memWrite (l.dstAddr.toNat + 16 * c.i)
        ((c.blockOut l).toList.take (min 16 (l.srcLen.toNat - 16 * c.i))) } := by
  rw [cfbTransition, h]
  rfl

/-- BLOCK(k) reads chunk k of the plaintext: no byte of SRC has been overwritten by the chunks before it (R68). -/
theorem chunkRead_afterBlocks (hapart : Spec.apart l.src (l.dst l.srcLen.toNat)) (k : Nat) :
    (CfbRun.afterBlocks l u k).chunkRead l = cfbChunk (u.memRead l.src) k := by
  refine congrArg Vector.ofFn <| funext fun j => ?_
  split
  case isTrue h =>
    have h : 16 * k + j.val < l.srcLen.toNat := h
    have hread : 16 * k + j.val < (u.memRead l.src).length := (State.length_memRead u l.src).symm ▸ h
    rw [List.getD_eq_getElem _ _ hread, State.getElem_memRead, CfbRun.afterBlocks, State.readByte_memWrite, dif_neg]
    · rfl
    · simp only [Spec.apart, Latched.src, Latched.dst] at hapart
      simp only [List.length_take, length_cfbCiphertext]
      omega
  case isFalse h => rw [List.getD_eq_default _ _ ((State.length_memRead u l.src).symm ▸ Nat.le_of_not_lt h)]

/-- BLOCK(k) makes block k of the ciphertext. -/
theorem blockOut_afterBlocks (hapart : Spec.apart l.src (l.dst l.srcLen.toNat)) {k : Nat}
    (h : 16 * k < l.srcLen.toNat) : (cfbCipherBlocks (Config.E l.key) (u.memRead l.src))[k]? =
      some ((CfbRun.afterBlocks l u k).blockOut l) := by
  rw [getElem?_cfbCipherBlocks _ ((State.length_memRead u l.src).symm ▸ h), CfbRun.blockOut,
    chunkRead_afterBlocks hapart]
  rfl

/-- Block k, cut at the end of the text, is chunk k of the ciphertext (R154). -/
theorem take_cfbCipherBlock {k : Nat} (h : 16 * k < l.srcLen.toNat) {b : Block}
    (hb : (cfbCipherBlocks (Config.E l.key) (u.memRead l.src))[k]? = some b) :
    b.toList.take (min 16 (l.srcLen.toNat - 16 * k)) = ((cfbCiphertext l u).drop (16 * k)).take 16 := by
  refine List.ext_getElem (by simp) fun j hj _ => ?_
  simp only [List.length_take, Vector.length_toList] at hj
  have hbyte := getElem?_cfbEncrypt (Config.E l.key) (p := u.memRead l.src) (i := k) (j := ⟨j, by omega⟩)
    (by simp only [State.length_memRead, Latched.src]; omega)
  rw [hb] at hbyte
  obtain ⟨_, hbyte⟩ := List.getElem?_eq_some_iff.1 hbyte
  simp only [List.getElem_take, List.getElem_drop]
  exact hbyte.symm

theorem fr_afterBlocks_succ (hapart : Spec.apart l.src (l.dst l.srcLen.toNat)) {k : Nat}
    (h : 16 * k < l.srcLen.toNat) :
    (CfbRun.afterBlocks l u (k + 1)).fr = (CfbRun.afterBlocks l u k).blockOut l := by
  rw [CfbRun.afterBlocks, feedback, blockOut_afterBlocks hapart h, Option.getD_some]

theorem pge_afterBlocks_succ (hapart : Spec.apart l.src (l.dst l.srcLen.toNat)) {k : Nat}
    (h : 16 * k < l.srcLen.toNat) :
    (CfbRun.afterBlocks l u (k + 1)).pge = (CfbRun.afterBlocks l u k).pge.memWrite (l.dstAddr.toNat + 16 * k)
      (((CfbRun.afterBlocks l u k).blockOut l).toList.take (min 16 (l.srcLen.toNat - 16 * k))) := by
  have hlen : ((cfbCiphertext l u).take (16 * k)).length = 16 * k := by simp; omega
  rw [take_cfbCipherBlock h (blockOut_afterBlocks hapart h)]
  simp only [CfbRun.afterBlocks]
  rw [Nat.mul_succ, List.take_add, State.memWrite_append, hlen]

/-- BLOCK(k) is one step of the recurrence of R153, in FR and in BUF. -/
theorem cfbTransition_afterBlocks (hapart : Spec.apart l.src (l.dst l.srcLen.toNat)) {k : Nat}
    (hk : k < cfbBlocks l.srcLen.toNat) :
    cfbTransition l (CfbRun.afterBlocks l u k) = CfbRun.afterBlocks l u (k + 1) := by
  have hlt : 16 * k < l.srcLen.toNat := by simp only [cfbBlocks, ceilDiv] at hk; omega
  rw [cfbTransition_block (if_pos hk)]
  exact (CfbRun.mk.injEq ..).mpr
    ⟨rfl, (fr_afterBlocks_succ hapart hlt).symm, rfl, (pge_afterBlocks_succ hapart hlt).symm⟩

theorem cfbTransitions_blocks (hapart : Spec.apart l.src (l.dst l.srcLen.toNat)) {k : Nat} :
    k ≤ cfbBlocks l.srcLen.toNat →
      cfbTransitions l k (CfbRun.afterBlocks l u 0) = CfbRun.afterBlocks l u k := by
  induction k with
  | zero => intro _; rfl
  | succ k ih =>
    intro hk
    rw [cfbTransitions_add, ih (by omega)]
    exact cfbTransition_afterBlocks hapart hk

/-- FINISH publishes the lengths over a BUF that already holds the ciphertext, which is what the one completion step
publishes. -/
theorem cfbTransition_finish_afterBlocks :
    cfbTransition l (CfbRun.afterBlocks l u (cfbBlocks l.srcLen.toNat)) =
      { CfbRun.afterBlocks l u (cfbBlocks l.srcLen.toNat) with
        phase := .idle, pge := u.completeOk (cfbOutput u l) } := by
  have hphase : (CfbRun.afterBlocks l u (cfbBlocks l.srcLen.toNat)).phase = .finish := if_neg (lt_irrefl _)
  have hbuf : (CfbRun.afterBlocks l u (cfbBlocks l.srcLen.toNat)).pge =
      u.memWrite l.dstAddr.toNat (cfbCiphertext l u) := by
    rw [CfbRun.afterBlocks, List.take_of_length_le (by rw [length_cfbCiphertext]; exact le_mul_cfbBlocks _)]
  rw [cfbTransition, hphase]
  simp only [hbuf]
  rfl

/-- From SETUP the engine reaches its end in the state of a success. -/
theorem cfbEndsIn_of_setup (hapart : Spec.apart l.src (l.dst l.srcLen.toNat)) {c : CfbRun} (h : c.phase = .setup) :
    c.EndsIn l (cfbBlocks l.srcLen.toNat + 2) (c.pge.completeOk (cfbOutput c.pge l)) := by
  rw [CfbRun.endsIn_succ, cfbTransition_setup h, CfbRun.EndsIn, cfbTransitions_add,
    cfbTransitions_blocks hapart (Nat.le_refl _), cfbTransitions, cfbTransition_finish_afterBlocks]
  exact ⟨rfl, rfl⟩

/-! CHECK and AUX, each by what decides it. -/

theorem cfbTransition_check_error {c : CfbRun} {e : Err} (h : c.phase = .check)
    (he : firstError (cfbChecks c.pge l) = some e) :
    cfbTransition l c = { c with phase := .idle, pge := c.pge.errorEntry e } := by
  rw [cfbTransition, h]
  simp only [he]

theorem cfbTransition_check_pass {c : CfbRun} (h : c.phase = .check) (hc : firstError (cfbChecks c.pge l) = none) :
    cfbTransition l c = { c with phase := .aux } := by
  rw [cfbTransition, h]
  simp only [hc]

theorem cfbTransition_aux_undrawn {c : CfbRun} (h : c.phase = .aux) (ha : c.pge.params.auxDraw = false) :
    cfbTransition l c = { c with phase := .setup } := by
  rw [cfbTransition, h]
  simp only [ha, Bool.false_eq_true, if_false]

theorem cfbTransition_aux_drawn {c : CfbRun} {r : Block} (h : c.phase = .aux) (ha : c.pge.params.auxDraw = true)
    (hr : c.pge.rng = some r) : cfbTransition l c = { c with phase := .setup, pge := c.pge.consumeDraw } := by
  rw [cfbTransition, h]
  simp only [ha, hr, if_true]

theorem cfbTransition_aux_failed {c : CfbRun} (h : c.phase = .aux) (ha : c.pge.params.auxDraw = true)
    (hr : c.pge.rng = none) :
    cfbTransition l c = { c with phase := .idle, pge := c.pge.consumeDraw.errorEntry .random } := by
  rw [cfbTransition, h]
  simp only [ha, hr, if_true]

end engine

/-- Whatever CHECK and AUX decide, the engine reaches its end in the state that the command publishes. -/
theorem cfbEndsIn_start (s : State) (l : Latched) :
    (CfbRun.start s).EndsIn l (cfbBlocks l.srcLen.toNat + 4) (s.publish (cfbResult s l)) := by
  rw [CfbRun.endsIn_succ]
  cases hc : firstError (cfbChecks s l) with
  | some e =>
    rw [cfbTransition_check_error rfl hc, publish_cfbResult_error hc]
    exact .of_idle rfl
  | none =>
    obtain ⟨-, -, hapart⟩ := firstError_cfbChecks_eq_none_iff.1 hc
    rw [cfbTransition_check_pass rfl hc, CfbRun.endsIn_succ]
    cases ha : s.params.auxDraw with
    | false =>
      rw [cfbTransition_aux_undrawn rfl ha, publish_cfbResult_undrawn hc ha]
      exact cfbEndsIn_of_setup hapart rfl
    | true =>
      cases hr : s.rng with
      | none =>
        rw [cfbTransition_aux_failed rfl ha hr, publish_cfbResult_failed hc ha hr]
        exact .of_idle rfl
      | some r =>
        rw [cfbTransition_aux_drawn rfl ha hr, publish_cfbResult_drawn hc ha hr]
        exact cfbEndsIn_of_setup hapart rfl

/-- Settles O28: the engine ends in what the command publishes, in each of its four ends. -/
theorem cfbEngineRefinesCommand : Obligations.CfbEngineRefinesCommand := by
  intro s run he c
  obtain ⟨hphase, hpge⟩ := cfbEndsIn_start s run.lat
  exact ⟨hphase, (exec_busy he).trans (congrArg _ hpge.symm)⟩

end Sys2Proof.Machine

/-! ## Proofs: the CRC -/

namespace Sys2Proof.Machine

/-- Settles O29: CRC_INIT has no check, and its result names only the accumulator. -/
theorem crcInitCompletes : Obligations.CrcInitCompletes := fun _ _ he => exec_busy he

/-- When the source is in BUF, CRC_UPDATE publishes the fold over it and no other register (R183). -/
theorem exec_crcUpdate_of_fits {s : State} {run : Running} (he : s.eng = .busy run) (hfit : Spec.fits s run.lat.src) :
    exec .crcUpdate s = .next { Spec.succeeded s 0 with crc := crcFold s.crc (s.memRead run.lat.src) } := by
  have hpass : ∀ c ∈ [(inBuf s.params run.lat.src, Err.range run.lat.srcAddr)], c.1 = true :=
    List.forall_mem_singleton.2 (fits_iff.1 hfit)
  rw [exec_busy he, resultOf, crcUpdateResult, guarded_of_pass hpass]
  rfl

/-- Settles O30: the premise is the one check, so the fold is published. -/
theorem crcUpdateCompletes : Obligations.CrcUpdateCompletes := fun _ _ => exec_crcUpdate_of_fits

/-- Folding two byte strings one after the other folds the joined string (R184). -/
theorem crcFold_append (c : Crc24) (xs ys : List Byte) : crcFold c (xs ++ ys) = crcFold (crcFold c xs) ys :=
  List.foldl_append

/-- Settles O31: the first command writes no byte of BUF, so the second continues its fold over bytes of `s`. -/
theorem crcUpdatesCompose : Obligations.CrcUpdatesCompose := by
  intro s t u run₁ run₂ he hfit₁ ht hfit₂ hu
  cases ht.symm.trans (exec_crcUpdate_of_fits he hfit₁)
  cases hu.symm.trans (exec_crcUpdate_of_fits rfl hfit₂)
  have hfold := (crcFold_append s.crc (s.memRead run₁.lat.src) (s.memRead run₂.lat.src)).symm
  exact ⟨hfold, fun hinit => hfold.trans (by rw [hinit, crc24])⟩

/-! The per-byte step on numbers (R182). -/

/-- A number of k + 1 bits whose top bit is clear has k bits. -/
theorem lt_two_pow_of_testBit_eq_false {n k : Nat} (h : n < 2 ^ (k + 1)) (hk : n.testBit k = false) : n < 2 ^ k := by
  refine Nat.lt_pow_two_of_testBit n fun i hi => ?_
  rcases Nat.eq_or_lt_of_le hi with rfl | hlt
  · exact hk
  · exact Nat.testBit_lt_two_pow (h.trans_le (Nat.pow_le_pow_right Nat.two_pos hlt))

/-- A round on 24 bits is the round on numbers: the shift to 25 bits is exact, and the reduction clears bit 24. -/
theorem toNat_crcRound (c : Crc24) : (crcRound c).toNat = Spec.crcRound c.toNat := by
  have hdouble : (c.setWidth 25 <<< 1 : BitVec 25).toNat = 2 * c.toNat := by
    have := c.isLt
    simp only [BitVec.toNat_shiftLeft, BitVec.toNat_setWidth, Nat.shiftLeft_eq]
    omega
  have hlt : 2 * c.toNat < 2 ^ 25 := hdouble ▸ BitVec.isLt _
  simp only [crcRound, Spec.crcRound, BitVec.getLsbD, hdouble]
  cases hbit : (2 * c.toNat).testBit 24 with
  | false =>
    have hfits : 2 * c.toNat < 2 ^ 24 := lt_two_pow_of_testBit_eq_false hlt hbit
    rw [if_neg Bool.false_ne_true, BitVec.toNat_setWidth, hdouble, Nat.mod_eq_of_lt hfits]
    rfl
  | true =>
    have hfits : 2 * c.toNat ^^^ 0x1864CFB < 2 ^ 24 :=
      lt_two_pow_of_testBit_eq_false (Nat.xor_lt_two_pow hlt (by decide))
        (by rw [Nat.testBit_xor, hbit]; decide)
    rw [if_pos rfl, BitVec.toNat_setWidth, BitVec.toNat_xor, hdouble]
    exact Nat.mod_eq_of_lt hfits

/-- The round that R182 makes last can be taken off the end. -/
theorem crcRounds_succ (k : Nat) : ∀ c, Spec.crcRounds (k + 1) c = Spec.crcRound (Spec.crcRounds k c) := by
  induction k with
  | zero => intro c; rfl
  | succ k ih => intro c; exact ih (Spec.crcRound c)

theorem toNat_repeat_crcRound (k : Nat) (c : Crc24) :
    (Nat.repeat crcRound k c).toNat = Spec.crcRounds k c.toNat := by
  induction k with
  | zero => rfl
  | succ k ih => rw [crcRounds_succ, ← ih, ← toNat_crcRound]; rfl

/-- The byte enters at bits 23:16 of the accumulator (R182). -/
theorem toNat_xor_byte (c : Crc24) (b : Byte) :
    (c ^^^ (b.setWidth 24 <<< 16)).toNat = c.toNat ^^^ (b.toNat * 65536) := by
  have := b.isLt
  have hshift : (b.setWidth 24 <<< 16 : Crc24).toNat = b.toNat * 65536 := by
    simp only [BitVec.toNat_shiftLeft, BitVec.toNat_setWidth, Nat.shiftLeft_eq]
    omega
  rw [BitVec.toNat_xor, hshift]

/-- Settles O32: every value of the rounds on numbers is one of the 24-bit accumulator, which gives the bounds of R185. -/
theorem crcStepArithmetic : Obligations.CrcStepArithmetic := by
  have hrounds (k : Nat) (c : Crc24) (b : Byte) : (Nat.repeat crcRound k (c ^^^ (b.setWidth 24 <<< 16))).toNat =
      Spec.crcRounds k (c.toNat ^^^ (b.toNat * 65536)) := by
    rw [toNat_repeat_crcRound, toNat_xor_byte]
  refine ⟨hrounds 8, fun c b k hc hb => ?_⟩
  have hlt : Spec.crcRounds k (c ^^^ (b * 65536)) < 2 ^ 24 := by
    have hval := hrounds k (BitVec.ofNatLT c hc) (BitVec.ofNatLT b hb)
    exact hval ▸ BitVec.isLt _
  exact ⟨hlt, by omega⟩

end Sys2Proof.Machine

/-! ## Proofs: radix-64 text -/

namespace Sys2Proof.Machine

/-- The encoding's recursion, position by position: behind its first four characters a text encodes the bytes behind its
first three (R200). -/
theorem getElem?_b64_add_four (s : List Byte) (i : Nat) : (b64 s)[4 + i]? = (b64 (s.drop 3))[i]? := by
  match s with
  | [] => rfl
  | [_] | [_, _] => rw [List.getElem?_eq_none (by simp [b64])]; rfl
  | g0 :: g1 :: g2 :: rest => exact List.getElem?_append_right (Nat.le_add_right ..) |>.trans (by simp)

/-- The 24 bits of group k, absent bytes read as zero (R200). -/
def radixBits (s : List Byte) (k : Nat) : BitVec 24 :=
  s.getD (3 * k) 0 ++ s.getD (3 * k + 1) 0 ++ s.getD (3 * k + 2) 0

theorem radixBits_drop (s : List Byte) (k : Nat) : radixBits (s.drop 3) k = radixBits s (k + 1) := by
  simp only [radixBits, List.getD, List.getElem?_drop]
  ring_nf

theorem getElem?_b64_first {s : List Byte} {j : Nat} (hs : s ≠ []) (hj : j < 4) :
    (b64 s)[j]? = if j ≤ s.length then (radixGroup (radixBits s 0))[j]? else some padChar := by
  match s with
  | [g0] => interval_cases j <;> rfl
  | [g0, g1] => interval_cases j <;> rfl
  | g0 :: g1 :: g2 :: rest =>
    rw [if_pos (by simp only [List.length_cons]; omega)]
    exact List.getElem?_append_left hj

/-- Character j of group k: a field of the group, or the pad character (R200, R201). -/
theorem getElem?_b64 (k : Nat) : ∀ {s : List Byte} {j : Nat}, 3 * k < s.length → j < 4 →
    (b64 s)[4 * k + j]? = if 3 * k + j ≤ s.length then (radixGroup (radixBits s k))[j]? else some padChar := by
  induction k with
  | zero =>
    intro s j hs hj
    simpa using getElem?_b64_first (List.length_pos_iff.1 hs) hj
  | succ k ih =>
    intro s j hs hj
    have hle : 3 * k + j ≤ (s.drop 3).length ↔ 3 * (k + 1) + j ≤ s.length := by rw [List.length_drop]; omega
    rw [show 4 * (k + 1) + j = 4 + (4 * k + j) by omega, getElem?_b64_add_four, ih (by rw [List.length_drop]; omega) hj,
      radixBits_drop]
    simp only [hle]

/-- The model's alphabet is the written-out one (R201). -/
theorem getElem?_alphabet : ∀ i : BitVec 6, Spec.alphabet[i.toNat]? = some (radixChar i) := by decide +kernel

/-- A character of a group is the alphabet's entry for its 6-bit field, most significant field first (R200). -/
theorem getElem?_radixGroup (v : BitVec 24) {j : Nat} (hj : j < 4) :
    (radixGroup v)[j]? = Spec.alphabet[v.toNat / 2 ^ (18 - 6 * j) % 64]? := by
  have hfield : (radixGroup v)[j]? = some (radixChar (v.extractLsb' (18 - 6 * j) 6)) := by interval_cases j <;> rfl
  rw [hfield, ← getElem?_alphabet, BitVec.extractLsb'_toNat, Nat.shiftRight_eq_div_pow]

/-- Settles O35, group by group: a field of the group's 24 bits is the same field of their number. -/
theorem radixCharacters : Obligations.RadixCharacters := by
  refine ⟨length_b64, fun s k j hk hj => ?_⟩
  rw [getElem?_b64 k hk hj, getElem?_radixGroup _ hj, radixBits, toNat_group]
  rfl

/-! ## Proofs: line wrapping -/

/-- A full line and its LF, and then the wrapping of the rest (R202). -/
theorem getElem?_wrap64_full_line {t : List Byte} (h : 64 ≤ t.length) (i : Nat) :
    (wrap64 t)[65 + i]? = (wrap64 (t.drop 64))[i]? := by
  have hline : (t.take 64 ++ [lf]).length = 65 := by simp; omega
  rw [wrap64_cons_line t (List.ne_nil_of_length_pos (by omega)), List.getElem?_append_right (by omega), hline,
    Nat.add_sub_cancel_left]

theorem getElem?_wrap64_first_line {t : List Byte} {j : Nat} (h : j ≤ min 64 t.length) (ht : t ≠ []) :
    (wrap64 t)[j]? = (t.take 64 ++ [lf])[j]? := by
  rw [wrap64_cons_line t ht, List.getElem?_append_left (by simp; omega)]

/-- Character j of line k. -/
theorem getElem?_wrap64_char (k : Nat) : ∀ {t : List Byte} {j : Nat}, j < 64 → 64 * k + j < t.length →
    (wrap64 t)[65 * k + j]? = t[64 * k + j]? := by
  induction k with
  | zero =>
    intro t j hj hlt
    simp only [Nat.mul_zero, Nat.zero_add] at hlt ⊢
    rw [getElem?_wrap64_first_line (by omega) (List.ne_nil_of_length_pos (by omega)),
      List.getElem?_append_left (by simp; omega), List.getElem?_take_of_lt hj]
  | succ k ih =>
    intro t j hj hlt
    rw [show 65 * (k + 1) + j = 65 + (65 * k + j) by omega, getElem?_wrap64_full_line (by omega),
      ih hj (by rw [List.length_drop]; omega), List.getElem?_drop]
    congr 1
    omega

/-- The LF of line k, which ends the line after 64 characters or at the end of the text. -/
theorem getElem?_wrap64_lf (k : Nat) : ∀ {t : List Byte}, 64 * k < t.length →
    (wrap64 t)[min (65 * k + 64) (t.length + k)]? = some lf := by
  induction k with
  | zero =>
    intro t ht
    rw [getElem?_wrap64_first_line (by omega) (List.ne_nil_of_length_pos (by omega)),
      List.getElem?_append_right (by simp)]
    simp
  | succ k ih =>
    intro t ht
    have hrest := ih (t := t.drop 64) (by rw [List.length_drop]; omega)
    rw [List.length_drop] at hrest
    rw [← hrest, ← getElem?_wrap64_full_line (by omega)]
    congr 1
    omega

/-- Settles O36, line by line. -/
theorem wrapLayout : Obligations.WrapLayout := by
  intro t
  refine ⟨length_wrap64 t, fun i hi => ?_, fun k hk => getElem?_wrap64_lf k (by simp only [Spec.ceil] at hk; omega)⟩
  have hchar := getElem?_wrap64_char (i / 64) (t := t) (j := i % 64) (by omega) (by omega)
  rwa [show 65 * (i / 64) + i % 64 = i + i / 64 by omega, Nat.div_add_mod] at hchar

/-! ## Proofs: RADIX64 -/

/-- Settles O33: the premises are the checks of R203, so the text is published. -/
theorem radix64Completes : Obligations.Radix64Completes := by
  intro s run he l out hsrc hlen hdst hapart
  have hresult : resultOf .radix64 s l = .ok (.atDst l out) :=
    guarded_plainChecks_of_pass (m := out.length) hsrc hlen hdst hapart _
  rw [exec_busy he, hresult, publish_atDst]

theorem ErrCode.number_injective {c d : ErrCode} (h : c.number = d.number) : c = d := by
  revert h
  cases c <;> cases d <;> decide

/-- ERRCODE and ERRINFO tell the errors apart (R240). -/
theorem errorEntry_inj {s : State} {e e' : Err} : s.errorEntry e = s.errorEntry e' ↔ e = e' := by
  refine ⟨fun h => ?_, fun h => h ▸ rfl⟩
  have hcode : e.code = e'.code := ErrCode.number_injective (congrArg State.errcode h)
  have hinfo : e.info = e'.info := congrArg State.errInfo h
  cases e
  cases e'
  exact (Err.mk.injEq ..).mpr ⟨hcode, hinfo⟩

/-- A command that makes no draw ends with an error exactly when its first failing check raises that error (R242). -/
theorem publish_eq_errorEntry_iff {i : Instr} {s : State} {l : Latched} {e : Err} (hs : s.done = false)
    (hd : Spec.draws i s l = false) :
    s.publish (resultOf i s l) = s.errorEntry e ↔ checkError i s l = some e := by
  cases hc : checkError i s l with
  | some e' =>
    rw [resultOf_of_checkError hc, Option.some_inj]
    exact errorEntry_inj
  | none =>
    refine iff_of_false (fun h => ?_) nofun
    obtain ⟨k, ⟨o, rfl, -, -⟩ | ⟨f, -, -, hdraw⟩, hr⟩ := resultOf_cases i s l
    · rw [hr, hc] at h
      have hdone : true = s.done := congrArg State.done h
      rw [hs] at hdone
      cases hdone
    · rw [hd] at hdraw
      cases hdraw

/-- Once the ranges that are read lie in BUF, TOO_LARGE is the check that fails exactly when the length is too large. -/
theorem checkError_eq_tooLarge_iff {i : Instr} {s : State} {l : Latched} (hs : Spec.srcOk i s l)
    (ha : Spec.auxOk i s l) : checkError i s l = some .tooLarge ↔ ¬ Spec.lengthOk i s l := by
  rw [checkError, if_neg (not_not.2 hs), if_neg (not_not.2 ha)]
  by_cases hlen : Spec.lengthOk i s l
  · rw [if_neg (not_not.2 hlen)]
    refine iff_of_false ?_ (not_not.2 hlen)
    split_ifs <;> simp [Err.tooLarge, Err.range, Err.overlap]
  · rw [if_pos hlen]
    exact iff_of_true rfl hlen

/-- The input length from which the wrapped text passes 2^32 - 1 bytes (R203). -/
theorem maxLen_lt_radixLength_iff (n : Nat) : maxLen < Spec.radixLength n ↔ 3171668155 ≤ n := by
  simp only [Spec.radixLength, Spec.ceil, maxLen]
  omega

/-- Settles O34: a success has the stated length, and with the source in BUF the length alone decides TOO_LARGE. -/
theorem radix64LengthAndLimit : Obligations.Radix64LengthAndLimit := by
  refine ⟨fun s t run he hs h ht => resLen_of_done he hs h ht, fun s run he hs hsrc => ?_⟩
  have hfailed : Spec.failed s 4 0xFFFFFFFF = s.errorEntry .tooLarge := rfl
  rw [exec_busy he, Host.Outcome.next.injEq, hfailed, publish_eq_errorEntry_iff hs rfl,
    checkError_eq_tooLarge_iff (fun _ => hsrc) (fun h => by cases h), Nat.not_le]
  exact maxLen_lt_radixLength_iff _

/-! ## Proofs: ARMOR -/

/-- The bytes that a successful ARMOR writes (R210). -/
def armorBytes (s : State) (l : Latched) : List Byte :=
  armorText (versionLine l.versel (s.memRead l.aux)) (s.memRead l.src)

/-- What a successful ARMOR publishes: its text at DST_ADDR, and the CRC of its data (R210, R214). -/
def armorOutput (s : State) (l : Latched) : Output :=
  { Output.atDst l (armorBytes s l) with crcOut := some (crc24 (s.memRead l.src)) }

/-- A check that is made only under a condition passes when the condition implies it. -/
theorem not_or_eq_true_iff {a b : Bool} : (!a || b) = true ↔ (a = true → b = true) := by
  cases a <;> simp

theorem armorResult_of_pass {s : State} {l : Latched} (hsrc : Spec.fits s l.src)
    (haux : l.versel = true → Spec.fits s l.aux) (hlen : (armorBytes s l).length ≤ maxLen)
    (hdst : Spec.fits s (l.dst (armorBytes s l).length)) (hapart : Spec.apart l.src (l.dst (armorBytes s l).length))
    (hauxApart : l.versel = true → Spec.apart l.aux (l.dst (armorBytes s l).length)) :
    armorResult s l = .ok (armorOutput s l) := by
  refine guarded_of_pass ?_ (.ok (armorOutput s l))
  simp only [List.mem_cons, List.not_mem_nil, or_false, forall_eq_or_imp, forall_eq, not_or_eq_true_iff,
    decide_eq_true_eq, Bool.not_eq_true', ← fits_iff, ← apart_iff]
  exact ⟨hsrc, haux, hlen, hdst, hapart, hauxApart⟩

theorem armorOutput_writes (s : State) (l : Latched) :
    (armorOutput s l).writes = [(l.dstAddr.toNat, armorBytes s l)] := rfl

theorem armorResult_cases (s : State) (l : Latched) :
    armorResult s l = .ok (armorOutput s l) ∨ ∃ e, armorResult s l = ⟨false, .err e⟩ := by
  rcases guarded_cases _ (.ok (armorOutput s l)) with ⟨e, -, h⟩ | ⟨-, h⟩
  · exact .inr ⟨e, h⟩
  · exact .inl h

/-- As `publish_atDst`, for a command whose success also writes CRC. -/
theorem publish_atDst_crc (s : State) (l : Latched) (bytes : List Byte) (c : Crc24) :
    s.publish (.ok { Output.atDst l bytes with crcOut := some c }) =
      { (Spec.succeeded s bytes.length).memWrite l.dstAddr.toNat bytes with crc := c } := rfl

/-- When the checks of R242 pass, ARMOR publishes its text at DST_ADDR and the CRC of its data. -/
theorem exec_armor_of_pass {s : State} {run : Running} (he : s.eng = .busy run) (hsrc : Spec.fits s run.lat.src)
    (haux : run.lat.versel = true → Spec.fits s run.lat.aux) {text : List Byte} (htext : armorBytes s run.lat = text)
    (hlen : text.length ≤ maxLen) (hdst : Spec.fits s (run.lat.dst text.length))
    (hapart : Spec.apart run.lat.src (run.lat.dst text.length))
    (hauxApart : run.lat.versel = true → Spec.apart run.lat.aux (run.lat.dst text.length)) :
    exec .armor s = .next { (Spec.succeeded s text.length).memWrite run.lat.dstAddr.toNat text with
      crc := crc24 (s.memRead run.lat.src) } := by
  subst htext
  have hresult : resultOf .armor s run.lat = .ok (armorOutput s run.lat) :=
    armorResult_of_pass hsrc haux hlen hdst hapart hauxApart
  rw [exec_busy he, hresult, armorOutput, publish_atDst_crc]

theorem versionLine_eq (s : State) (l : Latched) :
    versionLine l.versel (s.memRead l.aux) =
      if l.versel = false then ascii "Version: VerySimple PHP-GPG v1.6.1" ++ [0x0A]
      else if l.auxLen = 0 then [] else s.memRead l.aux ++ [0x0A] := by
  have hempty : s.memRead l.aux = [] ↔ l.auxLen = 0 := 
    (memRead_eq_nil_iff s l.aux).trans (BitVec.toNat_eq (y := 0)).symm
  cases hv : l.versel with
  | false => rfl
  | true => simp only [versionLine, hempty, if_true, Bool.true_eq_false, if_false]; rfl

/-- Settles O37: the premises are the checks of R242, and the text that the statement writes out is the model's. -/
theorem armorCompletes : Obligations.ArmorCompletes := by
  intro s run he l data ver crc sum text hsrc haux hlen hdst hapart hauxApart
  have htext : armorBytes s l = text := by
    simp only [armorBytes, armorText, checksumLine, bigEndian_crc, versionLine_eq]
    rfl
  exact exec_armor_of_pass he hsrc haux htext hlen hdst hapart hauxApart

/-- Settles O38. -/
theorem armorLength : Obligations.ArmorLength := fun _ _ _ he hs h ht => resLen_of_done he hs h ht

/-- LF or a printable ASCII character (R216). -/
abbrev IsArmorByte (b : Byte) : Prop := b = lf ∨ (0x20 ≤ b.toNat ∧ b.toNat ≤ 0x7E)

theorem isArmorByte_radixChar : ∀ i, IsArmorByte (radixChar i) := by decide

theorem isArmorByte_padChar : IsArmorByte padChar := by decide

theorem isArmorByte_beginMarker : ∀ b ∈ beginMarker, IsArmorByte b := by decide +kernel

theorem isArmorByte_endMarker : ∀ b ∈ endMarker, IsArmorByte b := by decide +kernel

theorem isArmorByte_defaultVersion : ∀ b ∈ defaultVersion, IsArmorByte b := by decide +kernel

theorem isArmorByte_lf : ∀ b ∈ [lf], IsArmorByte b := List.forall_mem_singleton.2 (.inl rfl)

theorem isArmorByte_radixGroup (v : BitVec 24) : ∀ b ∈ radixGroup v, IsArmorByte b := by
  simp only [radixGroup, List.forall_mem_cons, isArmorByte_radixChar, true_and]
  exact List.forall_mem_nil _

theorem isArmorByte_b64 : ∀ (s : List Byte), ∀ b ∈ b64 s, IsArmorByte b
  | [] => List.forall_mem_nil _
  | [_] => List.forall_mem_append.2
    ⟨fun b hb => isArmorByte_radixGroup _ b (List.mem_of_mem_take hb), by decide⟩
  | [_, _] => List.forall_mem_append.2
    ⟨fun b hb => isArmorByte_radixGroup _ b (List.mem_of_mem_take hb), by decide⟩
  | _ :: _ :: _ :: rest => List.forall_mem_append.2 ⟨isArmorByte_radixGroup _, isArmorByte_b64 rest⟩

/-- Wrapping adds only LF. -/
theorem mem_wrap64 {t : List Byte} {b : Byte} (h : b ∈ wrap64 t) : b ∈ t ∨ b = lf := by
  obtain ⟨k, -, hb⟩ := List.mem_flatMap.1 h
  rcases List.mem_append.1 hb with hb | hb
  · exact .inl (List.mem_of_mem_drop (List.mem_of_mem_take hb))
  · exact .inr (List.mem_singleton.1 hb)

theorem isArmorByte_wrap64_b64 (data : List Byte) : ∀ b ∈ wrap64 (b64 data), IsArmorByte b := fun b hb =>
  (mem_wrap64 hb).elim (isArmorByte_b64 data b) .inl

theorem isArmorByte_checksumLine (crc : Crc24) : ∀ b ∈ checksumLine crc, IsArmorByte b :=
  List.forall_mem_append.2 ⟨List.forall_mem_cons.2 ⟨isArmorByte_padChar, isArmorByte_b64 _⟩, isArmorByte_lf⟩

theorem mem_versionLine {versel : Bool} {aux : List Byte} {b : Byte} (h : b ∈ versionLine versel aux) :
    IsArmorByte b ∨ (versel = true ∧ b ∈ aux) := by
  cases versel with
  | false => exact .inl (List.forall_mem_append.2 ⟨isArmorByte_defaultVersion, isArmorByte_lf⟩ b h)
  | true =>
    rw [versionLine, if_pos rfl] at h
    split at h
    · cases h
    · rcases List.mem_append.1 h with h | h
      · exact .inr ⟨rfl, h⟩
      · exact .inl (isArmorByte_lf b h)

/-- Each part of the armor text beside the version line is LF and printable characters (R216). -/
theorem mem_armorText {ver data : List Byte} {b : Byte} (h : b ∈ armorText ver data) : IsArmorByte b ∨ b ∈ ver := by
  simp only [armorText, List.mem_append] at h
  rcases h with ((((((h | h) | h) | h) | h) | h) | h) | h
  · exact .inl (isArmorByte_beginMarker b h)
  · exact .inl (isArmorByte_lf b h)
  · exact .inr h
  · exact .inl (isArmorByte_lf b h)
  · exact .inl (isArmorByte_wrap64_b64 data b h)
  · exact .inl (isArmorByte_checksumLine _ b h)
  · exact .inl (isArmorByte_endMarker b h)
  · exact .inl (isArmorByte_lf b h)

/-- A byte string that has been written is read back. -/
theorem memRead_of_putBytes {s t : State} {a : Nat} {bs : List Byte} (hbuf : t.buf = Memory.putBytes s.buf a bs)
    (hepoch : t.bufEpoch = s.bufEpoch) : t.memRead ⟨a, bs.length⟩ = bs :=
  calc t.memRead ⟨a, bs.length⟩
    _ = (s.memWrite a bs).memRead ⟨a, bs.length⟩ := 
      State.memRead_congr fun b _ => State.readByte_congr (t := s.memWrite a bs) hbuf hepoch b
    _ = bs := by simpa using memRead_memWrite_part s a [] bs []

/-- The destination of a successful ARMOR holds the armor text. -/
theorem memRead_of_armor_done {s t : State} {run : Running} (he : s.eng = .busy run) (hs : s.done = false)
    (h : exec .armor s = .next t) (ht : t.done = true) :
    t.memRead ⟨run.lat.dstAddr.toNat, t.resLen.toNat⟩ = armorBytes s run.lat := by
  have hlen : t.resLen.toNat = (armorBytes s run.lat).length :=
    (resLen_of_done he hs h ht).trans (length_armorOf s run.lat).symm
  obtain ⟨o, ho, hbuf, hepoch⟩ := result_ok_of_done he hs h ht
  obtain rfl : o = armorOutput s run.lat := by
    rcases armorResult_cases s run.lat with hres | ⟨e, hres⟩ <;> rw [resultOf, hres] at ho <;> cases ho
    rfl
  rw [armorOutput_writes, Memory.putAll, List.foldl_cons, List.foldl_nil] at hbuf
  rw [hlen]
  exact memRead_of_putBytes hbuf hepoch

/-- Settles O39: the bytes read back are those of the text. -/
theorem armorCharacterSet : Obligations.ArmorCharacterSet := by
  intro s t run he hs h ht b hb
  rw [memRead_of_armor_done he hs h ht] at hb
  rw [← or_assoc]
  exact (mem_armorText hb).elim .inl mem_versionLine

/-- Settles O40: neither end of ARMOR takes anything from CRC, and only the success writes it. -/
theorem armorCrcSideEffect : Obligations.ArmorCrcSideEffect := by
  intro s t run he hs h
  rw [exec_busy he] at h
  cases h
  have he' (c : Crc24) : { s with crc := c }.eng = .busy run := he
  have hresult (c : Crc24) : resultOf .armor { s with crc := c } run.lat = resultOf .armor s run.lat := rfl
  simp only [exec_busy (he' _), hresult]
  rcases armorResult_cases s run.lat with hres | ⟨e, hres⟩
  · rw [resultOf, hres]
    exact ⟨fun _ => rfl, nofun, fun _ => rfl⟩
  · have hdone : ¬ (s.publish ⟨false, .err e⟩).done = true := by simp [State.publish, hs]
    rw [resultOf, hres]
    exact ⟨fun ht => absurd ht hdone, fun _ => rfl, fun _ => congrArg _ (if_neg hdone).symm⟩

end Sys2Proof.Machine

/-! ## Proofs: NOP -/

namespace Sys2Proof.Machine

/-- Settles O13: NOP has no check, writes nothing and names no result register. -/
theorem nopCompletes : Obligations.NopCompletes := fun _ _ he => exec_busy he

end Sys2Proof.Machine

/-! ## Proofs: the register port -/

namespace Sys2Proof.Machine

/-- KEY0 to KEY3 stand four bytes apart from 0x30 on (R23). -/
theorem at_key : ∀ i : Fin 4, Reg.at (0x30 + 4 * i.val) = .key i := by decide

/-- PFX0 to PFX3 stand four bytes apart from 0x40 on (R23). -/
theorem at_pfx : ∀ i : Fin 4, Reg.at (0x40 + 4 * i.val) = .pfx i := by decide

/-- Every offset above BLKCNT is reserved (R24 (c)). -/
theorem at_reserved {off : Nat} (h : 0x54 ≤ off) : Reg.at off = .reserved := by
  unfold Reg.at
  split
  any_goals omega
  rfl

/-- A whole word written at a multiple of 4 below 0x100 reaches the register there (R231). -/
theorem step_regWrite {s : State} {off : Nat} {v : Word} {rest : List HostOp}
    (h : Spec.hostTurn s (.regWrite off 4 v) rest) (hlt : off < 0x100) (hal : off % 4 = 0) :
    step s = .next ((Spec.passed s rest).writeReg (.at off) v) := by
  rw [step_hostTurn h, State.access, State.regWrite, if_pos (regAccessDefined_iff.2 ⟨rfl, hal, hlt⟩)]

/-- What a register reads does not depend on the host step that has passed. -/
theorem readReg_passed (s : State) (rest : List HostOp) (r : Reg) : (Spec.passed s rest).readReg r = s.readReg r := by
  cases r <;> rfl

/-- A whole word read at a multiple of 4 below 0x100 returns the register there and changes nothing else (R232). -/
theorem step_regRead {s : State} {off : Nat} {rest : List HostOp} (h : Spec.hostTurn s (.regRead off 4) rest)
    (hlt : off < 0x100) (hal : off % 4 = 0) :
    step s = .next { Spec.passed s rest with readData := some (.word (s.readReg (.at off))) } := by
  rw [step_hostTurn h, State.access, State.regRead, if_pos (regAccessDefined_iff.2 ⟨rfl, hal, hlt⟩), readReg_passed]

/-- CTRL takes the low 3 bits of a word as their number (R27). -/
theorem setWidth_three_eq_ofNat (v : Word) : v.setWidth 3 = BitVec.ofNat 3 (v.toNat % 8) := by
  apply BitVec.eq_of_toNat_eq
  simp

/-- Settles O49, register by register: each offset names one register of the map, and a write reaches only that one. -/
theorem registerWrites : Obligations.RegisterWrites := by
  intro s off v rest h u
  have hwrite := step_regWrite h
  refine ⟨?ctrl, ?srcAddr, ?srcLen, ?dstAddr, ?auxAddr, ?auxLen, ?key, ?pfx, ?readOnly, ?reserved⟩
  case ctrl =>
    rintro rfl
    rw [← setWidth_three_eq_ofNat]
    exact hwrite (by decide) rfl
  case key =>
    rintro i rfl
    rw [hwrite (by omega) (by omega), at_key]
    rfl
  case pfx =>
    rintro i rfl
    rw [hwrite (by omega) (by omega), at_pfx]
    rfl
  case readOnly =>
    intro hoff
    fin_cases hoff <;> exact hwrite (by decide) rfl
  case reserved =>
    intro hge hlt hal
    rw [hwrite hlt hal, at_reserved hge]
    rfl
  all_goals
    rintro rfl
    exact hwrite (by decide) rfl

theorem and_not_eq_ite (a b : Bool) : (a && !b) = if b then false else a := by
  cases b <;> simp

/-- Settles O50: the write reaches `State.writeStatus`, whose bits are the bits of the word's number. -/
theorem statusWriteOneToClear : Obligations.StatusWriteOneToClear := by
  intro s v rest h t
  refine ⟨?_, irq_of_clear⟩
  rw [step_regWrite h (by decide) rfl]
  simp only [Reg.at, State.writeReg, State.writeStatus, and_not_eq_ite]
  rfl

theorem toNat_append_eq {m n : Nat} (x : BitVec m) (y : BitVec n) : (x ++ y).toNat = 2 ^ n * x.toNat + y.toNat := by
  rw [BitVec.toNat_append, ← Nat.shiftLeft_add_eq_or_of_lt y.isLt, Nat.shiftLeft_eq, Nat.mul_comm]

/-- STATUS as the sum of its fields, each at its place (R26). -/
theorem toNat_statusWord (s : State) :
    s.statusWord.toNat = Spec.bit s.busy + 2 * Spec.bit s.done + 4 * Spec.bit s.err + 8 * Spec.bit s.cmdovr +
      256 * s.errcode.toNat + 65536 * s.lastopc.toNat := by
  have hbit (b : Bool) : (BitVec.ofBool b).toNat = Spec.bit b := by cases b <;> rfl
  have hzero (n : Nat) : (0 : BitVec n).toNat = 0 := rfl
  simp only [State.statusWord, toNat_append_eq, hbit, hzero]
  omega

/-- Settles O51, register by register: each offset names one register of the map, whose value the read returns. -/
theorem registerReads : Obligations.RegisterReads := by
  intro s off rest h hlt hal
  refine ⟨s.readReg (.at off), step_regRead h hlt hal, ?cmd, ?status, ?ctrl, ?srcAddr, ?srcLen, ?dstAddr, ?resLen,
    ?auxAddr, ?auxLen, ?crc, ?errInfo, ?bufSize, ?key, ?pfx, ?blkCnt, ?reserved⟩
  case status =>
    rintro rfl
    exact toNat_statusWord s
  case ctrl =>
    rintro rfl
    exact BitVec.toNat_setWidth_of_le (by decide)
  case crc =>
    rintro rfl
    exact BitVec.toNat_setWidth_of_le (by decide)
  case key =>
    rintro i rfl
    rw [at_key]
    rfl
  case pfx =>
    rintro i rfl
    rw [at_pfx]
    rfl
  case reserved =>
    intro hge
    rw [at_reserved hge]
    rfl
  all_goals
    rintro rfl
    rfl

end Sys2Proof.Machine

/-! ## Proofs: the buffer port -/

namespace Sys2Proof.Machine

theorem passed_eng_of_idle {s : State} (he : s.eng = .idle) (rest : List HostOp) :
    (Spec.passed s rest).eng = .idle := by
  rw [passed_of_idle he]
  exact he

theorem passed_eng_of_busy {s : State} {run : Running} (he : s.eng = .busy run) (rest : List HostOp) :
    (Spec.passed s rest).eng = .busy { run with wait := run.wait - 1 } := by
  rw [passed_of_busy he]

/-- Settles O54: a write outside BUF, one while idle, and one while a command runs, whose footprint does not depend on
its wait. -/
theorem bufferPortWrites : Obligations.BufferPortWrites := by
  intro s addr b rest h u
  rw [step_hostTurn h]
  refine ⟨fun hout => ?outside, fun hin => ⟨fun he => ?idle, fun run he => ?busy⟩⟩
  case outside => exact congrArg _ (bufWrite_outside (s := u) hout b)
  case idle => exact congrArg _ (bufWrite_idle (s := u) hin (passed_eng_of_idle he rest) b)
  case busy =>
    have hwrite := bufWrite_busy (s := u) hin (passed_eng_of_busy he rest) b
    rw [footprint_wait] at hwrite
    refine ⟨fun hrace => congrArg _ ?_, fun hfree => congrArg _ ?_⟩
    · exact hwrite.trans (if_pos hrace)
    · exact hwrite.trans (if_neg (Bool.eq_false_iff.1 hfree))

theorem bufRead_outside {s : State} {addr : Nat} (h : s.params.bufSize.toNat ≤ addr) :
    s.bufRead addr = { s with readData := some (.byte 0) } := if_pos h

theorem bufRead_idle {s : State} {addr : Nat} (h : addr < s.params.bufSize.toNat) (he : s.eng = .idle) :
    s.bufRead addr = { s with readData := some (.byte (s.readByte addr)) } := by
  rw [State.bufRead, if_neg (Nat.not_le.2 h), he]

/-- While a command runs, a byte read from BUF is free exactly in the destination range (R74). -/
theorem bufRead_busy {s : State} {run : Running} {addr : Nat} (h : addr < s.params.bufSize.toNat)
    (he : s.eng = .busy run) :
    s.bufRead addr =
      if run.dst.has addr then
        { s with readData := some (.byte (Config.racyByte s.oracle)), oracle := s.oracle + 1 }
      else { s with readData := some (.byte (s.readByte addr)) } := by
  rw [State.bufRead, if_neg (Nat.not_le.2 h), he]

/-- Settles O55: a read outside BUF, a plain one (idle, or outside the destination range), and a racing one. -/
theorem bufferPortReads : Obligations.BufferPortReads := by
  intro s addr rest h u
  rw [step_hostTurn h]
  have hbusy {run : Running} (hin : addr < u.params.bufSize.toNat) (he : s.eng = .busy run) :=
    bufRead_busy hin (passed_eng_of_busy he rest)
  refine ⟨fun hout => ?outside, fun hin => ⟨fun hplain => congrArg _ ?plain, fun run he hrace => ?racing⟩⟩
  case outside => exact congrArg _ (bufRead_outside (s := u) hout)
  case plain =>
    cases he : s.eng with
    | idle => exact bufRead_idle (s := u) hin (passed_eng_of_idle he rest)
    | busy run => exact (hbusy hin he).trans (if_neg (Bool.eq_false_iff.1 (hplain run he)))
  case racing => exact ⟨_, congrArg _ ((hbusy hin he).trans (if_pos hrace))⟩

end Sys2Proof.Machine

/-! ## Proofs: the ends of a command, and the interrupt line -/

namespace Sys2Proof.Machine

/-! The first check that fails, in the order of R242; `checkError_of_not_srcOk` and `checkError_of_not_auxOk` are the two
before these. -/

section checks
variable {i : Instr} {s : State} {l : Latched}

theorem checkError_of_not_lengthOk (hsrc : Spec.srcOk i s l) (haux : Spec.auxOk i s l) (h : ¬ Spec.lengthOk i s l) :
    checkError i s l = some .tooLarge := (checkError_eq_tooLarge_iff hsrc haux).2 h

theorem checkError_of_not_dstOk (hsrc : Spec.srcOk i s l) (haux : Spec.auxOk i s l) (hlen : Spec.lengthOk i s l)
    (h : ¬ Spec.dstOk i s l) : checkError i s l = some (.range l.dstAddr) := by
  rw [checkError, if_neg (not_not.2 hsrc), if_neg (not_not.2 haux), if_neg (not_not.2 hlen), if_pos h]

theorem checkError_of_not_apart (hsrc : Spec.srcOk i s l) (haux : Spec.auxOk i s l) (hlen : Spec.lengthOk i s l)
    (hdst : Spec.dstOk i s l) (h : ¬ (Spec.srcApart i s l ∧ Spec.auxApart i s l)) :
    checkError i s l = some (.overlap l.dstAddr) := by
  rw [checkError, if_neg (not_not.2 hsrc), if_neg (not_not.2 haux), if_neg (not_not.2 hlen), if_neg (not_not.2 hdst),
    if_pos h]

theorem resultOf_succeeds_of_checksPass (h : Spec.checksPass i s l) : Succeeds i s l (resultOf i s l) := by
  obtain ⟨k, hk, hr⟩ := resultOf_cases i s l
  rwa [hr, checkError_none_iff.2 h]

end checks

/-- A success leaves ERR as it was, also after a draw (R40). -/
theorem err_completeOk_drawn (s : State) (d : Bool) (o : Output) :
    ((if d then s.consumeDraw else s).completeOk o).err = s.err := by
  rw [State.completeOk_err]
  split <;> rfl

/-! The three ends of a command: a failed check, a failed draw, and success. -/

section ends
variable {i : Instr} {s : State} {run : Running}

theorem exec_of_checkError {e : Err} (he : s.eng = .busy run) (h : checkError i s run.lat = some e) :
    exec i s = .next (s.errorEntry e) := by
  rw [exec_busy he, resultOf_of_checkError h]
  rfl

theorem exec_of_draw_failed (he : s.eng = .busy run) (h : Spec.checksPass i s run.lat)
    (hd : Spec.draws i s run.lat = true) (hr : s.rng = none) :
    exec i s = .next (s.consumeDraw.errorEntry .random) := by
  rcases resultOf_succeeds_of_checksPass h with ⟨o, -, -, hnot⟩ | ⟨f, hf, -, -⟩
  · rw [hd] at hnot
    cases hnot
  · rw [exec_busy he, hf, withDraw, hr]
    rfl

/-- With the checks passed and no draw failed, the command succeeds with its result length, after one draw exactly where it
makes one (R40, R242). -/
theorem exec_of_draw_not_failed (he : s.eng = .busy run) (h : Spec.checksPass i s run.lat)
    (hr : Spec.draws i s run.lat = true → s.rng ≠ none) :
    ∃ o, o.resLen = Spec.resultLength s run.lat i ∧
      exec i s = .next ((if Spec.draws i s run.lat then s.consumeDraw else s).completeOk o) := by
  rw [exec_busy he]
  rcases resultOf_succeeds_of_checksPass h with ⟨o, ho, hlen, hd⟩ | ⟨f, hf, hlen, hd⟩
  · refine ⟨o, hlen, ?_⟩
    rw [ho, hd]
    rfl
  · obtain ⟨r, hsome⟩ := Option.ne_none_iff_exists'.1 (hr hd)
    refine ⟨f r, hlen r, ?_⟩
    rw [hf, hd, withDraw, hsome]
    rfl

end ends

/-- Settles O41: each clause names the first check that fails, or that none does and how the draw went, and so which end
of the command it is. -/
theorem firstFailingCheckReported : Obligations.FirstFailingCheckReported := by
  refine ⟨fun s run _ he _ => complete_busy he, ?_⟩
  intro i s run he l
  refine ⟨?src, ?aux, ?length, ?dst, ?apart, ?random, ?pass⟩
  case src => exact fun h => (exec_of_checkError he (checkError_of_not_srcOk h) :)
  case aux => exact fun hsrc h => (exec_of_checkError he (checkError_of_not_auxOk hsrc h) :)
  case length => exact fun hsrc haux h => (exec_of_checkError he (checkError_of_not_lengthOk hsrc haux h) :)
  case dst => exact fun hsrc haux hlen h => (exec_of_checkError he (checkError_of_not_dstOk hsrc haux hlen h) :)
  case apart =>
    exact fun hsrc haux hlen hdst h => (exec_of_checkError he (checkError_of_not_apart hsrc haux hlen hdst h) :)
  case random => exact exec_of_draw_failed he
  case pass =>
    intro h hr
    obtain ⟨o, hlen, hexec⟩ := exec_of_draw_not_failed he h hr
    obtain ⟨-, -, hlength, -⟩ := h
    have hshort : Spec.resultLength s l i < 2 ^ 32 := Nat.lt_succ_of_le hlength
    refine ⟨_, hexec, rfl, err_completeOk_drawn s _ o, rfl, rfl, ?resLen, fun hmoved => ?drew⟩
    case resLen => rw [State.completeOk_resLen, BitVec.toNat_ofNat, hlen, Nat.mod_eq_of_lt hshort]
    case drew =>
      by_contra hd
      rw [if_neg hd] at hmoved
      exact hmoved rfl

theorem ErrCode.one_le_number (c : ErrCode) : 1 ≤ c.number.toNat := by cases c <;> decide

/-- Settles O42: a failed check and a failed draw are error entry, the second after the draw it consumed; a success leaves
ERR as it was, at 0. -/
theorem errorEntryChangesNothingElse : Obligations.ErrorEntryChangesNothingElse := by
  intro i s t hs h ht
  obtain ⟨run, he, -⟩ := exec_next h
  cases hc : checkError i s run.lat with
  | some e =>
    rw [exec_of_checkError he hc] at h
    cases h
    exact ⟨rfl, fun _ => ⟨rfl, rfl⟩, e.code.one_le_number, e.code.number_le⟩
  | none =>
    have hpass := checkError_none_iff.1 hc
    by_cases hr : Spec.draws i s run.lat = true → s.rng ≠ none
    · obtain ⟨o, -, hexec⟩ := exec_of_draw_not_failed he hpass hr
      rw [hexec] at h
      cases h
      rw [err_completeOk_drawn, hs] at ht
      cases ht
    · obtain ⟨hd, hnone⟩ := Classical.not_imp.1 hr
      rw [exec_of_draw_failed he hpass hd (not_not.1 hnone)] at h
      cases h
      exact ⟨rfl, fun hcode => absurd rfl hcode, ErrCode.random.one_le_number, ErrCode.random.number_le⟩

/-! The interrupt line (R250). -/

theorem irq_eq_true_iff {s : State} :
    s.irq = true ↔ s.ctrl.getLsbD 0 = true ∧ (s.done = true ∨ s.err = true) := by
  rw [State.irq, Bool.and_eq_true, Bool.or_eq_true, State.ie]

/-- Either end of a completion leaves DONE or ERR at 1, so the line is IE (R40, R241). -/
theorem irq_publish (s : State) (c : Completed) : (s.publish c).irq = s.ctrl.getLsbD 0 := by
  have hctrl : (s.publish c).ctrl = s.ctrl := by rw [publish_frame]
  have hended : ((s.publish c).done || (s.publish c).err) = true := by
    rcases publish_cases s c with ⟨o, -, hp⟩ | ⟨e, -, hp⟩
    · rw [hp, State.completeOk_done, Bool.true_or]
    · rw [hp, State.errorEntry_err, Bool.or_true]
  rw [State.irq, hended, Bool.and_true, State.ie, hctrl]

theorem irq_of_complete {f : State → Latched → Completed} {s t : State} (h : complete f s = .next t) :
    t.irq = s.ctrl.getLsbD 0 := by
  cases he : s.eng with
  | idle => rw [complete, he] at h; cases h
  | busy run => rw [complete_busy he] at h; cases h; exact irq_publish s _

/-- Settles O58: every completion publishes a result, and accept and the STATUS write leave DONE and ERR at 0. -/
theorem interruptLine : Obligations.InterruptLine := by
  refine ⟨fun _ => irq_eq_true_iff, fun i s t h => irq_of_complete (exec_eq_complete i s ▸ h), fun s t => irq_of_complete,
    fun _ _ => irq_of_clear rfl rfl, fun s v hdone herr => irq_of_clear ?_ ?_⟩
  · rw [State.writeStatus_done, hdone, Bool.not_true, Bool.and_false]
  · rw [State.writeStatus_err, herr, Bool.not_true, Bool.and_false]

end Sys2Proof.Machine

/-! ## Proofs: a command in progress -/

namespace Sys2Proof.Machine

/-! While a command runs, no access but a reset reaches the engine or a result register that only a completion writes. -/

/-- The engine, and the result registers RES_LEN, CRC and BLKCNT, which a running command publishes only at its end (R40). -/
def State.runView (s : State) : Eng × Word × Crc24 × Word := (s.eng, s.resLen, s.crc, s.blkcnt)

/-- Of the registers only CMD reaches the engine, and while BUSY = 1 a CMD write is dropped (R38). -/
theorem runView_writeReg {s : State} (hb : s.busy = true) (r : Reg) (v : Word) :
    (s.writeReg r v).runView = s.runView := by
  cases r with
  | cmd => exact (congrArg State.runView (writeCmd_of_busy hb v) :)
  | _ => rfl

theorem runView_regWrite {s : State} (hb : s.busy = true) (off width : Nat) (v : Word) :
    (s.regWrite off width v).runView = s.runView := by
  unfold State.regWrite
  split
  · exact runView_writeReg hb (.at off) v
  · rfl

theorem runView_regRead (s : State) (off width : Nat) : (s.regRead off width).runView = s.runView := by
  unfold State.regRead
  split <;> rfl

theorem runView_bufWrite (s : State) (addr : Nat) (b : Byte) : (s.bufWrite addr b).runView = s.runView := by
  unfold State.bufWrite
  split
  · rfl
  · split
    · rfl
    · split <;> rfl

theorem runView_bufRead (s : State) (addr : Nat) : (s.bufRead addr).runView = s.runView := by
  unfold State.bufRead
  split
  · rfl
  · split
    · rfl
    · split <;> rfl

/-- A poll is a STATUS read, whether or not the `wait` stays in the script. -/
theorem runView_wait (s : State) : (s.access .wait).runView = s.runView := by
  unfold State.access
  dsimp only
  split <;> exact runView_regRead s 0x04 4

theorem runView_access {s : State} (hb : s.busy = true) {op : HostOp} (hop : op ≠ .reset) :
    (s.access op).runView = s.runView := by
  cases op with
  | regWrite off width v => exact runView_regWrite hb off width v
  | regRead off width => exact runView_regRead s off width
  | bufWrite addr b => exact runView_bufWrite s addr b
  | bufRead addr => exact runView_bufRead s addr
  | reset => exact absurd rfl hop
  | wait => exact runView_wait s

/-- What the invariant says of the registers while a command runs (R26, R37, R289). -/
theorem State.Inv.busy_registers {s : State} {run : Running} (h : s.Inv) (he : s.eng = .busy run) :
    s.busy = true ∧ s.done = false ∧ s.err = false ∧ s.errcode = 0 ∧ s.errInfo = 0 ∧
      s.lastopc = opcField run.lat.cmd := by
  obtain ⟨⟨hbusy, -, hcode, -⟩, heng, -⟩ := h
  obtain ⟨hb, hinfo, hopc, -⟩ := (engineInv_of_busy he).1 heng
  obtain ⟨hd, hr⟩ := hbusy hb
  exact ⟨hb, hd, hr, hcode.1 hr, hinfo, hopc⟩

/-- Settles O59: the access leaves the engine and the result registers as they are, so the state after it has the same
command in progress, and the invariant there gives STATUS and ERRINFO. -/
theorem runningCommandUndisturbed : Obligations.RunningCommandUndisturbed := by
  intro s t run op rest hinv hturn he hop ht
  have htinv : t.Inv := stepKeepsInvariant s t hinv ht
  obtain ⟨hb, -, -, -, -, hopc⟩ := hinv.busy_registers he
  rw [step_hostTurn hturn] at ht
  cases ht
  have hview := runView_access (s := Spec.passed s rest) hb hop
  simp only [State.runView, passed_eng_of_busy he, Prod.mk.injEq] at hview
  obtain ⟨heng, hlen, hcrc, hblk⟩ := hview
  obtain ⟨htb, htd, hte, htcode, htinfo, htopc⟩ := htinv.busy_registers heng
  exact ⟨heng, hlen, hcrc, hblk, htinfo, htopc.trans hopc.symm, htb, htd, hte, htcode⟩

/-! The end of a command: each host step but a reset shortens the wait, and a reset ends the command itself. -/

theorem run_succ {M : Host.Core} {s t : M.State} (h : M.step s = .next t) (k : Nat) : M.run (k + 1) s = M.run k t := by
  rw [Host.Core.run, h]

/-- One step of a busy PGE ends the command, by its completion or by a reset, or it takes one from a wait that was not
over (R40, R281). -/
theorem step_busy_cases {s : State} {run : Running} (hinv : s.Inv) (he : s.eng = .busy run) :
    ∃ t, step s = .next t ∧
      (t.eng = .idle ∨ run.wait ≠ 0 ∧ t.eng = .busy { run with wait := run.wait - 1 }) := by
  obtain ⟨t, ht⟩ := stepNeverStops s
  refine ⟨t, ht, ?_⟩
  rcases turn_cases s with ⟨run', he', hw, -⟩ | ⟨op, rest, hs, hw, -⟩ | ⟨hidle, -, -⟩
  · obtain ⟨c, rfl⟩ := step_engine_publishes he' hw ht
    exact .inl (publish_eng s c)
  · by_cases hop : op = .reset
    · rw [step_hostTurn ⟨hs, hw⟩, hop] at ht
      cases ht
      exact .inl rfl
    · obtain ⟨heng, -⟩ := runningCommandUndisturbed s t run op rest hinv ⟨hs, hw⟩ he hop ht
      exact .inr ⟨hw run he, heng⟩
  · rw [he] at hidle
    cases hidle

/-- The induction behind R290, on the wait. -/
theorem reaches_idle (n : Nat) : ∀ {s : State} {run : Running}, s.Inv → s.eng = .busy run → run.wait = n →
    ∃ k t, k ≤ n + 1 ∧ Host.Core.run Sys2Proof.core k s = .next t ∧ t.Inv ∧ t.eng = .idle := by
  induction n with
  | zero =>
    intro s run hinv he hw
    obtain ⟨t, ht, hidle | ⟨hpos, -⟩⟩ := step_busy_cases hinv he
    · exact ⟨1, t, Nat.le_refl 1, run_succ ht 0, stepKeepsInvariant s t hinv ht, hidle⟩
    · exact absurd hw hpos
  | succ n ih =>
    intro s run hinv he hw
    obtain ⟨t, ht, hidle | ⟨-, hbusy⟩⟩ := step_busy_cases hinv he
    · exact ⟨1, t, by omega, run_succ ht 0, stepKeepsInvariant s t hinv ht, hidle⟩
    · obtain ⟨k, u, hk, hrun, hu⟩ := ih (stepKeepsInvariant s t hinv ht) hbusy (by simp [hw])
      exact ⟨k + 1, u, Nat.succ_le_succ hk, (run_succ ht k).trans hrun, hu⟩

/-- Settles O10: the engine comes to be idle, and the invariant there gives BUSY = 0. -/
theorem acceptedCommandEnds : Obligations.AcceptedCommandEnds := by
  intro s run hinv he
  obtain ⟨k, t, hk, hrun, ⟨-, heng, -⟩, hidle⟩ := reaches_idle run.wait hinv he rfl
  exact ⟨k, t, hk, hrun, hidle, (engineInv_of_idle hidle).1 heng⟩

end Sys2Proof.Machine
